-- ==== Sys2Proof/Word.lean ====
section
/-! DEFINITION. The words of the block: the command word, the glyph and the string of glyphs. -/

namespace Sys2Proof

/-- The 3-bit command word `CMD`, the only fixed-width word of the block (R46). -/
abbrev CmdWord := BitVec 3

/-- One character of an operand string: one 8-bit code unit (R33, decision D4). -/
abbrev Glyph := BitVec 8

/-- A finite sequence of glyphs, indexed from 0 (R30). -/
abbrev GString := List Glyph

/-- The glyph '0' (R33).
PRESUMED, safe: the spec takes the code `0x30` from general knowledge (G1) and no rule depends on it (log 11). -/
def glyphZero : Glyph := 0x30#8

/-- The glyph '1' (R33).
PRESUMED, safe: the spec takes the code `0x31` from general knowledge (G1) and no rule depends on it (log 11). -/
def glyphOne : Glyph := 0x31#8

/-- The valid glyph that spells a bit. -/
def glyphOfBit (b : Bool) : Glyph := if b then glyphOne else glyphZero

end Sys2Proof
end

