-- ==== Sys2Proof/Syntax.lean ====
section
/-! DEFINITION. The six commands, and the tuple of inputs in which a command is presented. -/

namespace Sys2Proof

/-- The two division algorithms, field `ALG` (R12, R45). -/
inductive Alg where
  | restoring
  | nonRestoring
  deriving DecidableEq, Repr, Inhabited

/-- The two operand conventions, field `MODE` (R8, R12). -/
inductive Mode where
  | unsigned
  | signed
  deriving DecidableEq, Repr, Inhabited

/-- The component a command selects, field `UNIT` (R46). -/
inductive CmdUnit where
  | divisionEngine
  | binaryCodec
  deriving DecidableEq, Repr, Inhabited

/-- The direction of a codec command, field `DIR` (R46). -/
inductive Dir where
  | decode
  | encode
  deriving DecidableEq, Repr, Inhabited

/-- The six commands of the block with their operands, as the syntax of R60 writes them. -/
inductive Instr where
  /-- `DIV.R.U` dividend, divisor (R94). -/
  | divRU (dividend divisor : GString)
  /-- `DIV.R.S` dividend, divisor (R95). -/
  | divRS (dividend divisor : GString)
  /-- `DIV.NR.U` dividend, divisor (R104). -/
  | divNRU (dividend divisor : GString)
  /-- `DIV.NR.S` dividend, divisor (R105). -/
  | divNRS (dividend divisor : GString)
  /-- `DECODE` glyphs (R66). -/
  | decode (glyphs : GString)
  /-- `ENCODE` value, width (R69). -/
  | encode (value width : Nat)
  deriving DecidableEq, Repr, Inhabited

/-- The pseudo-command `divide(a, b, mode, algorithm)`: the one of the four divide commands that its two selectors
name (R45, R61). -/
def Instr.divide (alg : Alg) (mode : Mode) (dividend divisor : GString) : Instr :=
  match alg, mode with
  | .restoring, .unsigned => .divRU dividend divisor
  | .restoring, .signed => .divRS dividend divisor
  | .nonRestoring, .unsigned => .divNRU dividend divisor
  | .nonRestoring, .signed => .divNRS dividend divisor

/-- The tuple of inputs that presents a command, sampled together at the start of the call (R11). -/
structure Command where
  /-- `CMD`. -/
  cmd : CmdWord
  /-- `OPA`. -/
  opa : GString
  /-- `OPB`. -/
  opb : GString
  /-- `VAL`. -/
  val : Nat
  /-- `WIDTH`. -/
  width : Nat
  deriving DecidableEq, Repr, Inhabited

end Sys2Proof
end

