-- ==== Sys2Proof/Machine/Registers.lean ====
section
/-! DEFINITION. The types of the block's registers: the phases of the sequencer, the outcome codes, the working
registers of one call and the result registers. -/

namespace Sys2Proof.Machine

/-- The phases of the sequencer (R24). -/
inductive Phase where
  | idle
  | prepare
  | check
  | setup
  | iterate
  | correct
  | extract
  | sign
  | codec
  | done
  deriving DecidableEq, Repr, Inhabited

/-- The outcome of a completed call, register `STATUS` (R20).
Three members and no fourth: the code 3 is never produced (U12). -/
inductive Status where
  | ok
  | overflow
  | invalidFormat
  deriving DecidableEq, Repr, Inhabited

/-- The registers the harness reads: `STATUS` (R20) and the result registers (R21, R23). -/
inductive ResultReg where
  | status
  | q
  | r
  | opcOut
  | value
  | str
  deriving DecidableEq, Repr, Inhabited

/-- Which of the registers the harness may read now (R20 to R23, R25, R126).
DESIGN CHOICE: a field of the model's own, by which a read that the spec forbids gets no value (log 13). -/
inductive Readable where
  /-- No call has begun since reset: there is no result yet (R25), and every register answers what it holds, any value
  (U7, log 13). -/
  | afterReset
  /-- `STATUS` alone: the last call ended in an error, or a call has begun (R21, R23, R126). -/
  | statusOnly
  /-- `STATUS`, `Q`, `R`, `OPC_OUT`: the last call was a divide command that ended `Ok` (R21). -/
  | division
  /-- `STATUS`, `VALUE`: the last call was a `DECODE` that ended `Ok` (R23). -/
  | value
  /-- `STATUS`, `STR`: the last call was an `ENCODE` (R23). -/
  | string
  deriving DecidableEq, Repr, Inhabited

/-- The result registers (R21 to R23). -/
structure Results where
  /-- `Q`, the quotient, a mathematical integer (R22). -/
  q : Int
  /-- `R`, the remainder, never negative (R22). -/
  r : Nat
  /-- `OPC_OUT`, the operation count of the call (R21). -/
  opcOut : Nat
  /-- `VALUE`, the result of `DECODE` (R23). -/
  value : Nat
  /-- `STR`, the output string buffer of `ENCODE` (R23, R30). -/
  str : GString
  deriving DecidableEq, Repr, Inhabited

/-- The working state of one call (R10): the sampled inputs and the working registers. -/
structure Work where
  /-- `UNIT`, from `CMD[2]` (R28, R46). -/
  unit : CmdUnit
  /-- `ALG`, from `CMD[1]` (R12). -/
  alg : Alg
  /-- `MODE`, from `CMD[0]` of a divide command (R12). -/
  mode : Mode
  /-- `DIR`, from `CMD[0]` of a codec command (R46). -/
  dir : Dir
  /-- The sample of `OPA` (R11, R41). -/
  opa : GString
  /-- The sample of `OPB` (R11, R41). -/
  opb : GString
  /-- The sample of `VAL` (R11, R41). -/
  val : Nat
  /-- The sample of `WIDTH` (R11, R41). -/
  width : Nat
  /-- `W`, the word size (R13). -/
  w : Nat
  /-- `SN`, the sign flag of the dividend (R13). -/
  sn : Bool
  /-- `SD`, the sign flag of the divisor (R13). -/
  sd : Bool
  /-- `N`, the dividend magnitude (R13). -/
  n : Nat
  /-- `D`, the divisor magnitude (R13). -/
  d : Nat
  /-- `ACC`, the accumulator: low half, high half, test bit `2w`, transient carry `2w+1` (R14). -/
  acc : Nat
  /-- `DA`, the aligned divisor (R15). -/
  da : Nat
  /-- `CA`, the aligned complement of the divisor (R15). -/
  ca : Nat
  /-- `ITER`, the completed iterations (R16). -/
  iter : Nat
  /-- `OPC`, the operation counter (R17). -/
  opc : Nat
  /-- `PT`, the test bit as the previous iteration left it (R18). -/
  pt : Bool
  /-- `qmag`, the magnitude quotient that EXTRACT writes and SIGN reads (R82, R84). -/
  qmag : Nat
  /-- `rem`, the magnitude remainder that EXTRACT writes and SIGN reads (R82, R84). -/
  rem : Nat
  deriving DecidableEq, Repr, Inhabited

end Sys2Proof.Machine
end

