-- ==== Sys2Proof/Config.lean ====
section
/-! DEFINITION. What an implementation fixes (the three capacities of R5) and the free values: constants without a
body, which stand for every value the spec leaves unspecified. -/

namespace Sys2Proof

/-- The three implementation parameters `W_MAX`, `VAL_BITS`, `STR_MAX` (R5, D6); `none` is "no bound". -/
structure Capacity where
  /-- `W_MAX`, the largest word size. -/
  wMax : Option Nat
  /-- `VAL_BITS`, the width of an unsigned value. -/
  valBits : Option Nat
  /-- `STR_MAX`, the greatest length of a string. -/
  strMax : Option Nat
  deriving DecidableEq, Repr, Inhabited

namespace Capacity

/-- No bound on any of the three (R5, D6). -/
def unbounded : Capacity := { wMax := none, valBits := none, strMax := none }

/-- The least capacities the spec allows (R5). -/
def least : Capacity := { wMax := some 13, valBits := some 64, strMax := some 64 }

/-- `n` is at most the bound, where there is one; equally, the bound is absent or at least `n`. -/
def atMost (bound : Option Nat) (n : Nat) : Bool :=
  match bound with
  | none => true
  | some m => decide (n ≤ m)

/-- A word size the block accepts (R5, R76). -/
def fitsWord (c : Capacity) (w : Nat) : Bool := atMost c.wMax w

/-- A string length the block accepts (R5, R11). -/
def fitsString (c : Capacity) (n : Nat) : Bool := atMost c.strMax n

/-- A value that fits in `VAL_BITS` bits (R5, R67). -/
def fitsValue (c : Capacity) (v : Nat) : Bool :=
  match c.valBits with
  | none => true
  | some b => decide (v < 2 ^ b)

/-- The capacities the spec admits: `W_MAX >= 13`, `VAL_BITS >= 64`, `STR_MAX >= 64`, or no bound (R5). -/
def admissible (c : Capacity) : Bool :=
  atMost c.wMax 13 && atMost c.valBits 64 && atMost c.strMax 64

end Capacity

/-- Free values of the result registers once a call has begun and after a reset (R21, R23, D12, D13).
DESIGN CHOICE, safe: any value, drawn afresh with the counter `State.fresh` (log 5). -/
opaque Config.freeResults : Nat → Machine.Results

/-- Free values of the working registers outside a call (R10, U8).
DESIGN CHOICE, safe: any value, drawn afresh with the counter `State.fresh` (log 6). -/
opaque Config.freeWork : Nat → Machine.Work

/-- Free value of `STATUS` after a reset of a running block (R25, D13).
DESIGN CHOICE, safe (log 5). -/
opaque Config.freeStatus : Nat → Machine.Status

/-- The open output of `ENCODE` where the value does not fit the width: the bit that glyph `i` spells, for a value and a
width (R71, U1, D15: "a parameter, a function encode_overflow(value, width)").
DESIGN CHOICE: safe as to the content, which nothing constrains; unsafe as to completing at all (log 7). -/
opaque Config.encodeOverflowBit : (value width i : Nat) → Bool

end Sys2Proof
end

