-- ==== Sys2Proof/WellFormed.lean ====
section
/-! DEFINITION. Which commands can be presented to a block of given capacity: the types of the inputs (R11). -/

namespace Sys2Proof

/-- The inputs of a command are within their types: strings of at most `STR_MAX` glyphs, a value of `VAL_BITS` bits, a
width of at most `STR_MAX` (R11, R66, R69). -/
def Instr.wellFormed (c : Capacity) (i : Instr) : Bool :=
  match i with
  | .divRU a b => c.fitsString a.length && c.fitsString b.length
  | .divRS a b => c.fitsString a.length && c.fitsString b.length
  | .divNRU a b => c.fitsString a.length && c.fitsString b.length
  | .divNRS a b => c.fitsString a.length && c.fitsString b.length
  | .decode s => c.fitsString s.length
  | .encode value width => c.fitsValue value && c.fitsString width

end Sys2Proof
end

