-- ==== Sys2Proof/Decode.lean ====
section
/-! DEFINITION. From the tuple of inputs to a command and back: the field layout of R46 and the opcode map of R47. -/

namespace Sys2Proof

/-- `ALG` from its bit: 0 restoring, 1 non-restoring (R46). -/
def Alg.ofBit (b : Bool) : Alg := if b then .nonRestoring else .restoring

/-- `MODE` from its bit: 0 unsigned, 1 signed-magnitude (R46). -/
def Mode.ofBit (b : Bool) : Mode := if b then .signed else .unsigned

/-- `UNIT` from its bit: 0 DivisionEngine, 1 BinaryCodec (R46). -/
def CmdUnit.ofBit (b : Bool) : CmdUnit := if b then .binaryCodec else .divisionEngine

/-- `DIR` from its bit: 0 decode, 1 encode (R46). -/
def Dir.ofBit (b : Bool) : Dir := if b then .encode else .decode

/-- What the decoder answers: a command, or the reserved word it rejects by name (R57). -/
inductive Decoded where
  | instr (i : Instr)
  | reserved (cmd : CmdWord)
  deriving DecidableEq, Repr

/-- Decode a presented tuple by the fields `UNIT`, `ALG`, `MODE`/`DIR` of its command word (R46).
Words with `UNIT = 1` and `CMD[1] = 1` are reserved (R57). -/
def decode (c : Command) : Decoded :=
  match c.cmd.getLsbD 2, c.cmd.getLsbD 1, c.cmd.getLsbD 0 with
  | false, alg, mode => .instr (.divide (.ofBit alg) (.ofBit mode) c.opa c.opb)
  | true, false, false => .instr (.decode c.opa)
  | true, false, true => .instr (.encode c.val c.width)
  | true, true, _ => .reserved c.cmd

/-- Encode a command by the opcode map (R47).
DESIGN CHOICE, safe: an input the command does not use is the empty string or 0 (log 20). -/
def encode (i : Instr) : Command :=
  match i with
  | .divRU a b => { cmd := 0b000#3, opa := a, opb := b, val := 0, width := 0 }
  | .divRS a b => { cmd := 0b001#3, opa := a, opb := b, val := 0, width := 0 }
  | .divNRU a b => { cmd := 0b010#3, opa := a, opb := b, val := 0, width := 0 }
  | .divNRS a b => { cmd := 0b011#3, opa := a, opb := b, val := 0, width := 0 }
  | .decode s => { cmd := 0b100#3, opa := s, opb := [], val := 0, width := 0 }
  | .encode value width => { cmd := 0b101#3, opa := [], opb := [], val := value, width := width }

/-- The tuple that stands for a bare word of the opcode table: its three bits as `CMD`, every operand zero.
DESIGN CHOICE, safe: a zero operand string is the string `"0"` (log 2).
A number with a bit above the three is no command word. -/
def tableCommand (w : Nat) : Option Command :=
  if w < 8 then
    some { cmd := BitVec.ofNat 3 w, opa := [glyphZero], opb := [glyphZero], val := 0, width := 0 }
  else none

/-- The command that the decoder reads from a word of the opcode table whose operands are zero. -/
def decodeTableWord (_nbits w : Nat) : Option Instr :=
  match tableCommand w with
  | none => none
  | some c =>
    match decode c with
    | .instr i => some i
    | .reserved _ => none

end Sys2Proof
end

