-- ==== Sys2Proof/Machine/Bits.lean ====
section
/-! DEFINITION. Masks, complements under a mask and bit counts, all exact on naturals (R9). -/

namespace Sys2Proof.Machine

/-- `mask(n) = 2^n - 1`, by shift and subtract (00_scope.md section 5.1, R9). -/
def mask (n : Nat) : Nat := (1 <<< n) - 1

/-- `~v & mask(n)`: the complement within `n` bits (00_scope.md section 5.1). -/
def complementUnder (n v : Nat) : Nat := mask n ^^^ (v &&& mask n)

/-- `ceil(log2(n))`. -/
def ceilLog2 (n : Nat) : Nat := if n ≤ 1 then 0 else Nat.log2 (n - 1) + 1

end Sys2Proof.Machine
end

