-- ==== Sys2Proof/Machine/State.lean ====
section
/-! DEFINITION. The state of the block, the reasons a step can stop, and the state after reset. -/

namespace Sys2Proof.Machine

/-- What the harness does at one step (R126, R135).
DESIGN CHOICE, safe: inputs are held in the state because the step has no other argument (log 1). -/
inductive Input where
  /-- Nothing is presented. -/
  | quiet
  /-- A command is presented and its call is taken as one transition (R6). -/
  | call (c : Command)
  /-- A command is presented and the sequencer takes it up; the phases of the call are later steps (R6, R24). -/
  | start (c : Command)
  /-- The harness reads a register (R141). -/
  | read (reg : ResultReg)
  /-- The block is reset (R135). -/
  | reset
  deriving DecidableEq, Repr

/-- The state of the block. -/
structure State where
  /-- `PHASE` (R24). -/
  phase : Phase
  /-- The working registers of the call in progress (R10 to R18). -/
  work : Work
  /-- `STATUS` (R20). -/
  status : Status
  /-- The result registers (R21 to R23). -/
  results : Results
  /-- Which registers the harness may read; the model's own (log 13). -/
  readable : Readable
  /-- What the harness will do, the next event first; the model's own (log 1). -/
  inputs : List Input
  /-- The implementation's capacities, which never change (R5, log 9). -/
  cap : Capacity
  /-- The counter the free values are drawn with; the model's own (log 5). -/
  fresh : Nat
  deriving DecidableEq, Repr

/-- Why the machine stops with a fault. -/
inductive Fault where
  /-- Raised by a step in which the harness reads a result register after an error, after a call of another kind or once a call
  has begun: the spec makes it a fault of the reader (R21, R23, R126, U7); no command raises it.
  Safe (log 13). -/
  | unspecifiedRead (reg : ResultReg)
  deriving DecidableEq, Repr

/-- Why the machine refuses. -/
inductive Refusal where
  /-- Raised by the dispatch for an instruction that has no meaning yet; no arm raises it.
  Safe. -/
  | notModelled (mnemonic : String)
  /-- Raised when a command word 110 or 111 is presented: the spec refuses it (R57).
  Safe (log 8). -/
  | reservedCommand (cmd : CmdWord)
  /-- Raised when a command is presented while a call is in progress, PREPARE to SIGN or CODEC: the spec refuses it (R126, D17, U9).
  Safe (log 8, log 21). -/
  | commandWhileBusy
  /-- Raised by PREPARE when an operand is empty in signed-magnitude mode: the spec refuses it (R49, R76, D9).
  Safe (log 8). -/
  | signGlyphMissing
  /-- Raised by PREPARE when the dividend magnitude is `2^(2w)` or more: the spec refuses it (R51, R76, D8).
  Safe (log 8). -/
  | dividendTooLarge
  /-- Raised when a command exceeds `W_MAX`, `VAL_BITS` or `STR_MAX`: the spec refuses it (R5, R67, D6).
  Safe (log 9). -/
  | beyondCapacity
  deriving DecidableEq, Repr

/-- What a step or a meaning answers. -/
abbrev Out := Host.Outcome State Fault Refusal

/-- The working registers at reset.
DESIGN CHOICE, unsafe: the spec leaves them unspecified (R25) and the model names zero (log 4). -/
def Work.atReset : Work :=
  { unit := .divisionEngine, alg := .restoring, mode := .unsigned, dir := .decode
    opa := [], opb := [], val := 0, width := 0
    w := 0, sn := false, sd := false, n := 0, d := 0
    acc := 0, da := 0, ca := 0, iter := 0, opc := 0, pt := false, qmag := 0, rem := 0 }

/-- The result registers at reset.
DESIGN CHOICE, unsafe: the spec leaves them unspecified (R25) and the model names zero (log 4). -/
def Results.atReset : Results := { q := 0, r := 0, opcOut := 0, value := 0, str := [] }

/-- The machine right after reset: the sequencer is idle and no result exists (R25, R135). -/
def State.reset : State :=
  { phase := .idle
    work := Work.atReset
    status := .ok
    results := Results.atReset
    readable := .afterReset
    inputs := []
    cap := Capacity.unbounded
    fresh := 0 }

end Sys2Proof.Machine
end

