-- ==== Sys2Proof/Machine/Ops.lean ====
section
/-! DEFINITION. The shared operations: composing outcomes, the two access primitives of string buffers, the start of a
call, its end, the entry of an error and the return from it, and a reset of a running block. -/

namespace Sys2Proof.Machine

/-- Go on with `f` where `o` answers a next state; a fault or a refusal ends the run. -/
def andThen (o : Out) (f : State → Out) : Out :=
  match o with
  | .next s => f s
  | .fault r => .fault r
  | .refused r => .refused r

/-- `MemRead(S+i, 1)`: the glyph at index `i`, without side effect (R31).
No rule reads outside the string; there this answers none. -/
def memRead (buffer : GString) (i : Nat) : Option Glyph := buffer[i]?

/-- `MemWrite(STR+i, 1, g)`: set glyph `i` of the output buffer (R32).
Writing at the index after the last glyph appends it, which is how `ENCODE` fills the buffer. -/
def memWrite (buffer : GString) (i : Nat) (g : Glyph) : GString :=
  if i < buffer.length then buffer.set i g
  else if i = buffer.length then buffer ++ [g]
  else buffer

/-- A buffer as (address, byte) cells, the unit of address being one glyph (R30). -/
def Memory.cellsFrom (base : Nat) : GString → List Host.Cell
  | [] => []
  | g :: rest => (base, g) :: Memory.cellsFrom (base + 1) rest

/-- The cells of a buffer, indexed from 0 (R30). -/
def Memory.cells (buffer : GString) : List Host.Cell := Memory.cellsFrom 0 buffer

/-- The canonical form of cells: addresses strictly rising. -/
def Memory.wf : List Host.Cell → Bool
  | [] => true
  | [_] => true
  | a :: b :: rest => decide (a.1 < b.1) && Memory.wf (b :: rest)

/-- Latch the sampled inputs of a command into the working registers (R11, R12, R28, R41). -/
def sample (c : Command) (k : Work) : Work :=
  { k with
    unit := .ofBit (c.cmd.getLsbD 2)
    alg := .ofBit (c.cmd.getLsbD 1)
    mode := .ofBit (c.cmd.getLsbD 0)
    dir := .ofBit (c.cmd.getLsbD 0)
    opa := c.opa
    opb := c.opb
    val := c.val
    width := c.width }

/-- The phase a command goes to from IDLE (R24). -/
def firstPhase (u : CmdUnit) : Phase :=
  match u with
  | .divisionEngine => .prepare
  | .binaryCodec => .codec

/-- The state in which the call of a command begins: inputs sampled together (R11, R41), result registers unspecified from
here on (R23), so that only `STATUS` may be read. -/
def startState (i : Instr) (s : State) : State :=
  let k := sample (encode i) s.work
  { s with
    phase := firstPhase k.unit
    work := k
    results := Config.freeResults s.fresh
    readable := .statusOnly
    fresh := s.fresh + 1 }

/-- The entry of an error: `STATUS` takes its code, the call goes to DONE, no result register is written (R116). -/
def raiseError (e : Status) (s : State) : State :=
  { s with phase := .done, status := e, readable := .statusOnly }

/-- The end of a call that ended `Ok`: results written together with `STATUS <- 0` (R21, R23, R24). -/
def complete (results : Results) (readable : Readable) (s : State) : State :=
  { s with phase := .done, status := .ok, results := results, readable := readable }

/-- DONE goes to IDLE at once, after a success as after an error; the working state is discarded (R10, R24, R116, R117).
The discarded registers take free values (log 6). -/
def release (s : State) : State :=
  { s with phase := .idle, work := Config.freeWork s.fresh, fresh := s.fresh + 1 }

/-- The phases of a call in progress: all but IDLE, and but DONE, in which the call has its result (R24). -/
def inCall (p : Phase) : Bool :=
  match p with
  | .idle => false
  | .done => false
  | .prepare => true
  | .check => true
  | .setup => true
  | .iterate => true
  | .correct => true
  | .extract => true
  | .sign => true
  | .codec => true

/-- DONE is left for IDLE before the next event has its effect: "IDLE at once; the block is ready for the next command" (R24).
DEDUCED, safe: that DONE may stand between two steps at all is the phase-by-phase view's, and this hides it (log 21). -/
def settle (s : State) : State := if s.phase = .done then release s else s

/-- Begin the call of a command: with no call in progress (R126, D17) and within capacity (R5, R11).
A command presented in DONE finds the block ready, as R24 says; that such a moment exists is the model's (log 21). -/
def beginCall (i : Instr) (s : State) : Out :=
  if inCall s.phase = true then .refused .commandWhileBusy
  else if i.wellFormed s.cap = false then .refused .beyondCapacity
  else .next (startState i (settle s))

/-- A reset of a running block: IDLE, a call in progress is abandoned without a result, everything else is
unspecified and takes free values (R25, R135, log 19). -/
def resetBlock (s : State) : State :=
  { s with
    phase := .idle
    work := Config.freeWork s.fresh
    status := Config.freeStatus s.fresh
    results := Config.freeResults s.fresh
    readable := .afterReset
    fresh := s.fresh + 1 }

end Sys2Proof.Machine
end

