-- ==== Sys2Proof/Machine/Operands.lean ====
section
/-! DEFINITION. Glyphs and strings as numbers, the two operand formats, and operand preparation. -/

namespace Sys2Proof.Machine

/-- The bit a glyph spells; none for the 254 invalid glyphs (R33, R34). -/
def glyphBit (g : Glyph) : Option Bool :=
  if g = glyphZero then some false
  else if g = glyphOne then some true
  else none

/-- The glyph is '0' or '1' (R33). -/
def validGlyph (g : Glyph) : Bool := (glyphBit g).isSome

/-- Every glyph of the string is valid (R33). -/
def validString (s : GString) : Bool := s.all validGlyph

/-- The bit of a glyph as a number, for the sum of R34; 0 where the glyph is invalid, which the sum is never read for. -/
def bitValue (g : Glyph) : Nat := ((glyphBit g).getD false).toNat

/-- `value(S)`, the sum of `bit(S[i]) * 2^(n-1-i)`: the number a string of valid glyphs stands for (R34). -/
def value : GString → Nat
  | [] => 0
  | g :: rest => bitValue g * 2 ^ rest.length + value rest

/-- The loop of `decode` from a running value: one glyph after the other, the first the most significant (R66). -/
def decodeLoop : GString → Nat → Option Nat
  | [], v => some v
  | g :: rest, v =>
    match glyphBit g with
    | some false => decodeLoop rest (2 * v)
    | some true => decodeLoop rest (2 * v + 1)
    | none => none

/-- `decode(s)`: the value, or none for `InvalidFormat` (R66). -/
def decodeString (s : GString) : Option Nat := decodeLoop s 0

/-- What operand assembly forms from one operand string (R50). -/
structure Operand where
  /-- The sign flag. -/
  sign : Bool
  /-- The magnitude. -/
  mag : Nat
  /-- The number of magnitude glyphs. -/
  magBits : Nat
  deriving DecidableEq, Repr

/-- Format `UMAG`: the whole string is magnitude (R48); none where a glyph is invalid. -/
def operandUmag (s : GString) : Option Operand :=
  match decodeString s with
  | some v => some { sign := false, mag := v, magBits := s.length }
  | none => none

/-- Format `SMAG`: the first glyph is the sign flag, the rest magnitude (R49); none where a glyph is invalid, the sign
glyph included. -/
def operandSmag (s : GString) : Option Operand :=
  match memRead s 0 with
  | none => none
  | some g =>
    match glyphBit g, decodeString (s.drop 1) with
    | some b, some v => some { sign := b, mag := v, magBits := s.length - 1 }
    | some _, none => none
    | none, _ => none

/-- An operand string in the format its mode selects (R50). -/
def operand (m : Mode) (s : GString) : Option Operand :=
  match m with
  | .unsigned => operandUmag s
  | .signed => operandSmag s

/-- An operand that has no sign glyph where the mode presupposes one (R49). -/
def lacksSignGlyph (m : Mode) (s : GString) : Bool := decide (m = .signed) && s.isEmpty

/-- PREPARE: read both operand strings and write `W`, `SN`, `SD`, `N`, `D` (R24, R76).
Both strings are read before an error is raised, which shows no order (R37, log 14); the refusals for capacity and for a
dividend of `2^(2w)` or more come after `InvalidFormat` (R76, log 15). -/
def preparePhase (s : State) : Out :=
  let k := s.work
  if lacksSignGlyph k.mode k.opa || lacksSignGlyph k.mode k.opb then .refused .signGlyphMissing
  else
    match operand k.mode k.opa, operand k.mode k.opb with
    | some a, some b =>
      if !(s.cap.fitsWord b.magBits && s.cap.fitsValue a.mag && s.cap.fitsValue b.mag) then
        .refused .beyondCapacity
      else if 2 ^ (2 * b.magBits) ≤ a.mag then .refused .dividendTooLarge
      else
        .next { s with
          phase := .check
          work := { k with w := b.magBits, sn := a.sign, sd := b.sign, n := a.mag, d := b.mag } }
    | _, _ => .next (raiseError .invalidFormat s)

end Sys2Proof.Machine
end

