-- ==== Sys2Proof/Machine/Codec.lean ====
section
/-! DEFINITION. BinaryCodec: the commands `DECODE` and `ENCODE` (40_binary_codec.md). -/

namespace Sys2Proof.Machine

/-- The loop of `encode` with `remaining` glyphs to write, the next at index `i`: subtract the power of two where it fits and
write '1', else write '0' (R69). -/
def encodeLoop : (remaining i v : Nat) → GString → GString
  | 0, _, _, buffer => buffer
  | k + 1, i, v, buffer =>
    if 2 ^ k ≤ v then encodeLoop k (i + 1) (v - 2 ^ k) (memWrite buffer i glyphOne)
    else encodeLoop k (i + 1) v (memWrite buffer i glyphZero)

/-- The open output for a value that does not fit: some string of `width` valid glyphs (R71, U1, D15).
DESIGN CHOICE: safe as to the glyphs, which are free values; unsafe as to completing at all (log 7). -/
def encodeOverflow (value width : Nat) : GString :=
  (List.range width).map fun i => glyphOfBit (Config.encodeOverflowBit value width i)

/-- `encode(value, width)` (R69, R71). -/
def encodeString (value width : Nat) : GString :=
  if value < 2 ^ width then encodeLoop width 0 value [] else encodeOverflow value width

/-- CODEC of a `DECODE`: the value, or `InvalidFormat` with no partial value (R66); a value beyond `VAL_BITS` is refused (R67). -/
def decodePhase (s : State) : Out :=
  match decodeString s.work.opa with
  | none => .next (raiseError .invalidFormat s)
  | some v =>
    if s.cap.fitsValue v = true then .next (complete { s.results with value := v } .value s)
    else .refused .beyondCapacity

/-- CODEC of an `ENCODE`: it never raises (R69). -/
def encodePhase (s : State) : Out :=
  .next (complete { s.results with str := encodeString s.work.val s.work.width } .string s)

/-- CODEC: the whole of `DECODE` or `ENCODE` (R24). -/
def codecPhase (s : State) : Out :=
  match s.work.dir with
  | .decode => decodePhase s
  | .encode => encodePhase s

/-- A codec command as one transition (R6, R24). -/
def codecCommand (i : Instr) (s : State) : Out :=
  andThen (beginCall i s) fun t => andThen (codecPhase t) fun u => .next (release u)

/-- `DECODE` (R66). -/
def execDecode (glyphs : GString) (s : State) : Out := codecCommand (.decode glyphs) s

/-- `ENCODE` (R69). -/
def execEncode (value width : Nat) (s : State) : Out := codecCommand (.encode value width) s

end Sys2Proof.Machine
end

