-- ==== Sys2Proof/Machine/Flags.lean ====
section
/-! DEFINITION. The bits that act as flags (R19): the test bit, the overflow condition, the sign condition. -/

namespace Sys2Proof.Machine

/-- The test bit of an accumulator value at word size `w`: bit `2w` (R14, R19). -/
def testBitOf (w acc : Nat) : Bool := acc.testBit (2 * w)

/-- `H`, the high half of the dividend's magnitude: `(N >> W) & mask(W)` (R78). -/
def highHalf (w n : Nat) : Nat := (n >>> w) &&& mask w

/-- The overflow condition of the pre-flight check, an unsigned comparison in which equality overflows (R78). -/
def overflowCondition (w n d : Nat) : Bool := decide (d ≤ highHalf w n)

/-- The sign condition `SN ^ SD = 1` (R84, decision D10). -/
def signsDiffer (sn sd : Bool) : Bool := sn ^^ sd

end Sys2Proof.Machine
end

