-- ==== Sys2Proof/Machine/NonRestoring.lean ====
section
/-! DEFINITION. The non-restoring iteration and its final correction (43_nonrestoring.md). -/

namespace Sys2Proof.Machine

/-- One non-restoring iteration (R101): keep the test bit (a), shift then mask (b), subtract or add by the kept bit, counted
once (c), quotient bit from the new test bit (d).
This is the variant that folds the first trial add into the first iteration (R102, log 16). -/
def nonRestoringIteration (k : Work) : Work :=
  let previous := testBitOf k.w k.acc
  let shifted := (k.acc <<< 1) &&& mask (2 * k.w + 1)
  let sum := if previous = false then shifted + k.ca else shifted + k.da
  let acc := if testBitOf k.w sum = false then sum ||| 1 else sum
  { k with pt := previous, acc := acc, opc := k.opc + 1, iter := k.iter + 1 }

/-- The final correction (R103): add the aligned divisor where the test bit is 1; not counted. -/
def finalCorrection (k : Work) : Work :=
  if testBitOf k.w k.acc = true then { k with acc := k.acc + k.da } else k

end Sys2Proof.Machine
end

