-- ==== Sys2Proof/Machine/Restoring.lean ====
section
/-! DEFINITION. The restoring iteration (42_restoring.md). -/

namespace Sys2Proof.Machine

/-- One restoring iteration (R93): mask then shift (a), trial subtraction, counted (b), quotient bit 1 where the test bit is
clear (c), restore, counted (d). -/
def restoringIteration (k : Work) : Work :=
  let shifted := (k.acc &&& mask (2 * k.w + 1)) <<< 1
  let trial := shifted + k.ca
  if testBitOf k.w trial = false then
    { k with acc := trial ||| 1, opc := k.opc + 1, iter := k.iter + 1 }
  else
    { k with acc := trial + k.da, opc := k.opc + 1 + 1, iter := k.iter + 1 }

end Sys2Proof.Machine
end

