-- ==== Sys2Proof/Machine/Divide.lean ====
section
/-! DEFINITION. The phases of a divide command after PREPARE, and the frame that runs them (41_divide_common.md). -/

namespace Sys2Proof.Machine

/-- CHECK: raise `Overflow` where the high half is not below the divisor; write nothing else (R78, R115). -/
def checkPhase (s : State) : State :=
  if overflowCondition s.work.w s.work.n s.work.d = true then raiseError .overflow s
  else { s with phase := .setup }

/-- The aligned divisor `DA` (R79). -/
def alignedDivisor (w d : Nat) : Nat := d <<< w

/-- `complementDivisor`, the divisor's negation within `w+1` bits (R79). -/
def complementDivisor (w d : Nat) : Nat := complementUnder (w + 1) d + 1

/-- The aligned complement `CA`, its test bit forced to 1 (R79). -/
def alignedComplement (w d : Nat) : Nat := (complementDivisor w d <<< w) ||| (1 <<< (2 * w))

/-- SETUP: write the addends, load the accumulator, clear `ITER` and `OPC` (R79, R81). -/
def setupPhase (s : State) : State :=
  let k := s.work
  { s with
    phase := if 0 < k.w then .iterate else .extract
    work := { k with
      da := alignedDivisor k.w k.d
      ca := alignedComplement k.w k.d
      acc := k.n
      iter := 0
      opc := 0 } }

/-- One iteration of the selected algorithm (R24, R75). -/
def iteration (k : Work) : Work :=
  match k.alg with
  | .restoring => restoringIteration k
  | .nonRestoring => nonRestoringIteration k

/-- The phase after the last iteration (R24). -/
def phaseAfterLoop (a : Alg) : Phase :=
  match a with
  | .restoring => .extract
  | .nonRestoring => .correct

/-- ITERATE: one iteration; stay while `ITER < W` (R16, R24). -/
def iteratePhase (s : State) : State :=
  let k := iteration s.work
  { s with phase := if k.iter < k.w then .iterate else phaseAfterLoop k.alg, work := k }

/-- CORRECT (R24, R103). -/
def correctPhase (s : State) : State :=
  { s with phase := .extract, work := finalCorrection s.work }

/-- EXTRACT: mask the accumulator to `2w` bits; the low half is the quotient, the high half the remainder (R82). -/
def extractPhase (s : State) : State :=
  let k := s.work
  let acc := k.acc &&& mask (2 * k.w)
  { s with
    phase := .sign
    work := { k with acc := acc, qmag := acc &&& mask k.w, rem := (acc >>> k.w) &&& mask k.w } }

/-- The quotient the sign rule gives: negated exactly in signed-magnitude mode with differing sign flags (R84).
The spec standardises on `SN ^ SD = 1` (D10, U2). -/
def signedQuotient (m : Mode) (sn sd : Bool) (qmag : Nat) : Int :=
  if m = .signed ∧ signsDiffer sn sd = true then -(qmag : Int) else (qmag : Int)

/-- SIGN: the sign rule, and the results written with `STATUS <- 0` (R21, R24, R84). -/
def signPhase (s : State) : State :=
  let k := s.work
  complete
    { s.results with q := signedQuotient k.mode k.sn k.sd k.qmag, r := k.rem, opcOut := k.opc }
    .division s

/-- `n` iterations. -/
def runLoop : Nat → State → State
  | 0, s => s
  | n + 1, s => runLoop n (iteratePhase s)

/-- The correction, where the sequencer is at it: non-restoring only (R75). -/
def correctIfSelected (s : State) : State := if s.phase = .correct then correctPhase s else s

/-- The frame from SETUP on: addends, `W` iterations, correction, extraction, sign rule (R75). -/
def runFromSetup (s : State) : State :=
  signPhase (extractPhase (correctIfSelected (runLoop s.work.w (setupPhase s))))

/-- The frame from CHECK on; an error skips everything after it (R75). -/
def runFromCheck (s : State) : State :=
  if (checkPhase s).phase = .done then checkPhase s else runFromSetup (checkPhase s)

/-- The frame of a divide command from PREPARE on (R75). -/
def runDivide (s : State) : Out :=
  andThen (preparePhase s) fun p =>
    if p.phase = .done then .next (release p) else .next (release (runFromCheck p))

/-- A divide command as one transition (R6, R75). -/
def divideCommand (i : Instr) (s : State) : Out := andThen (beginCall i s) runDivide

/-- `DIV.R.U`: unsigned restoring division (R94). -/
def execDivRU (dividend divisor : GString) (s : State) : Out := divideCommand (.divRU dividend divisor) s

/-- `DIV.R.S`: signed-magnitude restoring division (R95). -/
def execDivRS (dividend divisor : GString) (s : State) : Out := divideCommand (.divRS dividend divisor) s

/-- `DIV.NR.U`: unsigned non-restoring division (R104). -/
def execDivNRU (dividend divisor : GString) (s : State) : Out := divideCommand (.divNRU dividend divisor) s

/-- `DIV.NR.S`: signed-magnitude non-restoring division (R105). -/
def execDivNRS (dividend divisor : GString) (s : State) : Out := divideCommand (.divNRS dividend divisor) s

end Sys2Proof.Machine
end

