-- ==== Sys2Proof/Machine/Dispatch.lean ====
section
/-! DEFINITION. One arm per command. -/

namespace Sys2Proof.Machine

def exec (i : Instr) (s : State) : Host.Outcome State Fault Refusal :=
  match i with
  | .divRU dividend divisor => Sys2Proof.Machine.execDivRU dividend divisor s
  | .divRS dividend divisor => Sys2Proof.Machine.execDivRS dividend divisor s
  | .divNRU dividend divisor => Sys2Proof.Machine.execDivNRU dividend divisor s
  | .divNRS dividend divisor => Sys2Proof.Machine.execDivNRS dividend divisor s
  | .decode glyphs => Sys2Proof.Machine.execDecode glyphs s
  | .encode value width => Sys2Proof.Machine.execEncode value width s

end Sys2Proof.Machine
end

