-- ==== Sys2Proof/Machine/Fetch.lean ====
section
/-! DEFINITION. How the block takes the harness's next event, in place of an instruction fetch (R24, R38). -/

namespace Sys2Proof.Machine

/-- The next event of the harness, and the state without it; nothing is presented once the list is used up. -/
def takeInput (s : State) : Input × State :=
  match s.inputs with
  | [] => (.quiet, s)
  | e :: rest => (e, { s with inputs := rest })

/-- Run what the decoder reads from a presented tuple; the block starts no call for a reserved word (R57). -/
def dispatchCommand (c : Command) (run : Instr → State → Out) (s : State) : Out :=
  match decode c with
  | .instr i => run i s
  | .reserved w => .refused (.reservedCommand w)

end Sys2Proof.Machine
end

