-- ==== Sys2Proof/Machine/Ports.lean ====
section
/-! DEFINITION. What the harness reads: which registers it may read, the shape of a call's result, and the encodings of
the results on ports. -/

namespace Sys2Proof.Machine

/-- The registers the harness may read: after reset all of them, with any value (U7, log 13); then the meaningful ones (R20 to R23). -/
def canRead (p : Readable) (reg : ResultReg) : Bool :=
  match p, reg with
  | .afterReset, _ => true
  | _, .status => true
  | .division, .q => true
  | .division, .r => true
  | .division, .opcOut => true
  | .value, .value => true
  | .string, .str => true
  | _, _ => false

/-- A register's content as the harness gets it. -/
inductive PortValue where
  | status (x : Status)
  | integer (x : Int)
  | natural (x : Nat)
  | string (x : GString)
  deriving DecidableEq, Repr

/-- The content of a register the harness reads. -/
def portValue (reg : ResultReg) (s : State) : PortValue :=
  match reg with
  | .status => .status s.status
  | .q => .integer s.results.q
  | .r => .natural s.results.r
  | .opcOut => .natural s.results.opcOut
  | .value => .natural s.results.value
  | .str => .string s.results.str

/-- The harness reads a register: its content where it may be read; else the reader's fault (R21, R23, R126, U7). -/
def readResult (reg : ResultReg) (s : State) : Host.Outcome PortValue Fault Refusal :=
  if canRead s.readable reg = true then .next (portValue reg s) else .fault (.unspecifiedRead reg)

/-- A harness read as an event of the block: it changes nothing but that DONE is left for IDLE (R24, log 21), or it is the
reader's fault. -/
def harnessRead (reg : ResultReg) (s : State) : Out :=
  match readResult reg s with
  | .next _ => .next (settle s)
  | .fault f => .fault f
  | .refused r => .refused r

/-- The shapes of a call's result (R45, R53). -/
inductive CallResult where
  /-- `Ok` with quotient, remainder and operation count. -/
  | division (q : Int) (r opc : Nat)
  /-- `Ok` of a `DECODE`. -/
  | value (v : Nat)
  /-- `Ok` of an `ENCODE`. -/
  | string (s : GString)
  /-- `Err` with kind `Overflow`: no payload. -/
  | overflow
  /-- `Err` with kind `InvalidFormat`: no payload. -/
  | invalidFormat
  deriving DecidableEq, Repr

/-- The result of the last call, where it is still there to be read: the registers of its shape and no others (R53).
After reset there is no result yet (R25). -/
def callResult (s : State) : Option CallResult :=
  if s.phase = .idle ∨ s.phase = .done then
    match s.readable, s.status with
    | .division, _ => some (.division s.results.q s.results.r s.results.opcOut)
    | .value, _ => some (.value s.results.value)
    | .string, _ => some (.string s.results.str)
    | .statusOnly, .overflow => some .overflow
    | .statusOnly, .invalidFormat => some .invalidFormat
    | .statusOnly, .ok => none
    | .afterReset, _ => none
  else none

/-- The code of `STATUS` on its two bits (R20, D2). -/
def statusCode (x : Status) : BitVec 2 :=
  match x with
  | .ok => 0#2
  | .overflow => 1#2
  | .invalidFormat => 2#2

/-- `ACC_BITS`, the physical width of the accumulator (R5, R14, D7). -/
def accBits (wMax : Nat) : Nat := 2 * wMax + 2

/-- `OPC_BITS`, the width of the operation counter (R5, D7). -/
def opcBits (wMax : Nat) : Nat := ceilLog2 (2 * wMax + 1)

/-- The quotient on its port: two's complement in `W_MAX + 1` bits (R22, D11). -/
def portQ (wMax : Nat) (q : Int) : BitVec (wMax + 1) := BitVec.ofInt (wMax + 1) q

/-- The remainder on its port: `W_MAX` bits, unsigned (R22, D11). -/
def portR (wMax : Nat) (r : Nat) : BitVec wMax := BitVec.ofNat wMax r

/-- The operation count on its port: `OPC_BITS` bits, unsigned (R22, D11). -/
def portOpcOut (wMax : Nat) (n : Nat) : BitVec (opcBits wMax) := BitVec.ofNat (opcBits wMax) n

end Sys2Proof.Machine
end

