-- ==== Sys2Proof/Machine/Sequencer.lean ====
section
/-! DEFINITION. The sequencer, phase by phase (R24). -/

namespace Sys2Proof.Machine

/-- One move of the sequencer with nothing presented: the phase table of R24.
IDLE without a command stays IDLE (log 18). -/
def advance (s : State) : Out :=
  match s.phase with
  | .idle => .next s
  | .prepare => preparePhase s
  | .check => .next (checkPhase s)
  | .setup => .next (setupPhase s)
  | .iterate => .next (iteratePhase s)
  | .correct => .next (correctPhase s)
  | .extract => .next (extractPhase s)
  | .sign => .next (signPhase s)
  | .codec => codecPhase s
  | .done => .next (release s)

/-- `n` moves of the sequencer. -/
def runPhases : Nat → State → Out
  | 0, s => .next s
  | n + 1, s => andThen (advance s) (runPhases n)

end Sys2Proof.Machine
end

