-- ==== Sys2Proof/Machine/Step.lean ====
section
/-! DEFINITION. One step of the machine. -/

namespace Sys2Proof.Machine

/-- One step: the harness's next event.
A call is one transition, or it is started and each further step is one move of the sequencer (R6, R24, log 3). -/
def step (s : State) : Host.Outcome State Fault Refusal :=
  match takeInput s with
  | (.quiet, t) => advance t
  | (.call c, t) => dispatchCommand c exec t
  | (.start c, t) => dispatchCommand c beginCall t
  | (.read reg, t) => harnessRead reg t
  | (.reset, t) => .next (resetBlock t)

/-- The state in which the harness presents the command of an opcode-table word, with operands of zeros, as its next event,
to an idle block (log 2). -/
def State.withFetchWord (s : State) (_nbits w : Nat) : State :=
  match tableCommand w with
  | some c => { s with phase := .idle, inputs := .call c :: s.inputs }
  | none => s

end Sys2Proof.Machine
end

