-- ==== Sys2Proof/Safety.lean ====
section
/-! DEFINITION. The terms in which claims are made: the operands as the formats of the spec read them, when a divide command
runs to a result, the contents of the accumulator in the loop, and the invariant of the machine. -/

namespace Sys2Proof.Machine

/-! ## Operands -/

/-- The magnitude glyphs of an operand string (R48, R49). -/
def magDigits (m : Mode) (s : GString) : GString :=
  match m with
  | .unsigned => s
  | .signed => s.drop 1

/-- `mag(S)` (R48, R49). -/
def magOf (m : Mode) (s : GString) : Nat := value (magDigits m s)

/-- `sign(S)` (R48, R49). -/
def signOf (m : Mode) (s : GString) : Bool :=
  match m, s with
  | .signed, g :: _ => g == glyphOne
  | .signed, [] => false
  | .unsigned, _ => false

/-- `w`, the word size: the number of magnitude glyphs of the divisor string (R50). -/
def wordSize (m : Mode) (divisor : GString) : Nat := (magDigits m divisor).length

/-- The inputs of a divide command are within the capacities of the block, and no call is in progress (R5, R11, R126). -/
abbrev Presentable (a b : GString) (s : State) : Prop :=
  inCall s.phase = false ∧ s.cap.fitsString a.length = true ∧ s.cap.fitsString b.length = true

/-- Word size and magnitudes are within the capacities of the block (R5, R76). -/
abbrev WithinCapacity (m : Mode) (a b : GString) (s : State) : Prop :=
  s.cap.fitsWord (wordSize m b) = true ∧ s.cap.fitsValue (magOf m a) = true ∧ s.cap.fitsValue (magOf m b) = true

/-- Both strings have the sign glyph their mode presupposes, and no invalid glyph (R49, R76). -/
abbrev WellSpelled (m : Mode) (a b : GString) : Prop :=
  lacksSignGlyph m a = false ∧ lacksSignGlyph m b = false ∧ validString a = true ∧ validString b = true

/-- The conditions, on the state and the operands alone, under which a divide command ends `Ok` or `Overflow` (R76):
presented with no call in progress, within capacity, well spelled, and with a dividend below `2^(2w)`. -/
abbrev DivideReady (m : Mode) (a b : GString) (s : State) : Prop :=
  Presentable a b s ∧ WithinCapacity m a b s ∧ WellSpelled m a b ∧ magOf m a < 2 ^ (2 * wordSize m b)

/-- The pre-flight check passes: the high half of the dividend is below the divisor (R78). -/
abbrev CheckPasses (m : Mode) (a b : GString) : Prop :=
  highHalf (wordSize m b) (magOf m a) < magOf m b

/-- `popcount`: the number of 1 bits among the `w` low bits (R96). -/
def popcount (w v : Nat) : Nat := ((List.range w).filter fun i => v.testBit i).length

/-- The operation count of a division by an algorithm (R96, R107). -/
def expectedCount (a : Alg) (w qmag : Nat) : Nat :=
  match a with
  | .restoring => 2 * w - popcount w qmag
  | .nonRestoring => w

/-- A command ends in a next state in which the block is idle again, and of which `P` holds (R7). -/
def EndsIdle (o : Out) (P : State → Prop) : Prop :=
  ∃ t, o = .next t ∧ t.phase = .idle ∧ P t

/-- What a divide command does, for the algorithm and the mode it stands for: `InvalidFormat` where a glyph of either string is
invalid; `Overflow` where the pre-flight check fails; else quotient, remainder and operation count (R94, R95, R104, R105). -/
def DivideMeaning (alg : Alg) (m : Mode) (i : GString → GString → Instr) : Prop :=
  ∀ (a b : GString) (s : State),
    (Presentable a b s → lacksSignGlyph m a = false → lacksSignGlyph m b = false →
      (validString a = false ∨ validString b = false) →
      EndsIdle (exec (i a b) s) fun t => t.status = .invalidFormat ∧ t.readable = .statusOnly) ∧
    (DivideReady m a b s → ¬ CheckPasses m a b →
      EndsIdle (exec (i a b) s) fun t => t.status = .overflow ∧ t.readable = .statusOnly) ∧
    (DivideReady m a b s → CheckPasses m a b →
      EndsIdle (exec (i a b) s) fun t =>
        t.status = .ok ∧ t.readable = .division ∧
        t.results.q =
          (if signOf m a = signOf m b then ((magOf m a / magOf m b : Nat) : Int)
           else -((magOf m a / magOf m b : Nat) : Int)) ∧
        t.results.r = magOf m a % magOf m b ∧
        t.results.opcOut = expectedCount alg (wordSize m b) (magOf m a / magOf m b))

/-! ## The loop -/

/-- `A_k`, the accumulator below the carry bit after `k` iterations of long division: remainder so far in the high half, the
`w-k` dividend bits not yet shifted in, the `k` quotient bits (R27, R97). -/
def longDivisionAcc (w n d k : Nat) : Nat :=
  (n >>> (w - k)) % d * 2 ^ w + n % 2 ^ (w - k) * 2 ^ k + (n >>> (w - k)) / d

/-- `ACC` as an integer after `k` iterations: the loaded dividend at first; then, with the carry bit, `A_k` for the restoring
divider (R97), and `A_k` or `A_k - D*2^w` by the last quotient bit for the non-restoring one (R106). -/
def accAfter (a : Alg) (w n d k : Nat) : Nat :=
  if k = 0 then n
  else
    match a with
    | .restoring => 2 ^ (2 * w + 1) + longDivisionAcc w n d k
    | .nonRestoring =>
      if longDivisionAcc w n d k % 2 = 1 then 2 ^ (2 * w + 1) + longDivisionAcc w n d k
      else 2 ^ (2 * w + 1) + longDivisionAcc w n d k - d * 2 ^ w

/-! ## The invariant -/

/-- What PREPARE has written (R76). -/
def OperandsRead (c : Capacity) (k : Work) : Prop :=
  k.unit = .divisionEngine ∧ WellSpelled k.mode k.opa k.opb ∧ c.fitsWord k.w = true ∧
  k.w = wordSize k.mode k.opb ∧ k.sn = signOf k.mode k.opa ∧ k.sd = signOf k.mode k.opb ∧
  k.n = magOf k.mode k.opa ∧ k.d = magOf k.mode k.opb ∧ k.n < 2 ^ (2 * k.w)

/-- What CHECK has established (R78). -/
def CheckPassed (k : Work) : Prop := highHalf k.w k.n < k.d

/-- What SETUP has written to the addends (R80). -/
def AddendsSet (k : Work) : Prop :=
  k.da = k.d * 2 ^ k.w ∧ k.ca = 2 ^ (2 * k.w + 1) - k.d * 2 ^ k.w

/-- Where the loop stands after `ITER` iterations (R16, R17, R96, R97, R106, R107). -/
def LoopState (k : Work) : Prop :=
  k.acc = accAfter k.alg k.w k.n k.d k.iter ∧
  k.opc = expectedCount k.alg k.iter ((k.n >>> (k.w - k.iter)) / k.d)

/-- What each phase may rely on (R24). -/
def PhaseInv (s : State) : Prop :=
  match s.phase with
  | .idle => s.readable = .statusOnly → s.status ≠ .ok
  | .prepare => s.work.unit = .divisionEngine
  | .check => OperandsRead s.cap s.work
  | .setup => OperandsRead s.cap s.work ∧ CheckPassed s.work
  | .iterate =>
    OperandsRead s.cap s.work ∧ CheckPassed s.work ∧ AddendsSet s.work ∧ s.work.iter < s.work.w ∧ LoopState s.work
  | .correct =>
    OperandsRead s.cap s.work ∧ CheckPassed s.work ∧ AddendsSet s.work ∧ s.work.iter = s.work.w ∧
    s.work.alg = .nonRestoring ∧ LoopState s.work
  | .extract =>
    OperandsRead s.cap s.work ∧ CheckPassed s.work ∧ s.work.acc < 2 ^ (2 * s.work.w + 2) ∧
    s.work.acc % 2 ^ (2 * s.work.w) = s.work.n % s.work.d * 2 ^ s.work.w + s.work.n / s.work.d ∧
    s.work.opc = expectedCount s.work.alg s.work.w (s.work.n / s.work.d)
  | .sign =>
    OperandsRead s.cap s.work ∧ CheckPassed s.work ∧
    s.work.qmag = s.work.n / s.work.d ∧ s.work.rem = s.work.n % s.work.d ∧
    s.work.opc = expectedCount s.work.alg s.work.w s.work.qmag
  | .codec => s.work.unit = .binaryCodec
  | .done =>
    match s.readable with
    | .afterReset => False
    | .statusOnly => s.status ≠ .ok
    | .division =>
      OperandsRead s.cap s.work ∧ CheckPassed s.work ∧
      s.results.q = signedQuotient s.work.mode s.work.sn s.work.sd (s.work.n / s.work.d) ∧
      s.results.r = s.work.n % s.work.d ∧
      s.results.opcOut = expectedCount s.work.alg s.work.w (s.work.n / s.work.d)
    | .value => decodeString s.work.opa = some s.results.value ∧ s.cap.fitsValue s.results.value = true
    | .string => s.results.str = encodeString s.work.val s.work.width

/-- A result can be read only after a call that ended `Ok`, and not while a call is in progress (R21, R23). -/
def ReadInv (s : State) : Prop :=
  (s.readable = .division ∨ s.readable = .value ∨ s.readable = .string → s.status = .ok) ∧
  (inCall s.phase = true → s.readable = .statusOnly)

/-- The invariant of the machine. -/
def MachineInv (s : State) : Prop := s.cap.admissible = true ∧ ReadInv s ∧ PhaseInv s

/-! ## The phase table -/

/-- The phases that may follow a phase while nothing is presented (R24). -/
def nextPhases (p : Phase) : List Phase :=
  match p with
  | .idle => [.idle]
  | .prepare => [.check, .done]
  | .check => [.setup, .done]
  | .setup => [.iterate, .extract]
  | .iterate => [.iterate, .correct, .extract]
  | .correct => [.extract]
  | .extract => [.sign]
  | .sign => [.done]
  | .codec => [.done]
  | .done => [.idle]

/-- Enough moves of the sequencer for the whole call of a command: `w + 7` for a divide command, 2 for a codec command. -/
def callBound (i : Instr) : Nat := (encode i).opb.length + 8

end Sys2Proof.Machine
end

