-- ==== Sys2Proof/Certificates/Slice0/Obligations.lean ====
section
/-! DEFINITION. The statements about the model, for the provers. -/

open Sys2Proof Sys2Proof.Machine

/-! ## Encoding -/

/-- R46 (the spec's decision D1): the fields of the command word select unit, algorithm and mode or direction. -/
def Obligations.CommandFieldsSelectCommand : Prop :=
  ∀ c : Command,
    (c.cmd.getLsbD 2 = false →
      decode c = .instr (Instr.divide
        (if c.cmd.getLsbD 1 = true then .nonRestoring else .restoring)
        (if c.cmd.getLsbD 0 = true then .signed else .unsigned) c.opa c.opb)) ∧
    (c.cmd.getLsbD 2 = true → c.cmd.getLsbD 1 = false →
      decode c = .instr (if c.cmd.getLsbD 0 = true then .encode c.val c.width else .decode c.opa))

/-- The six words of the opcode table decode to their commands. -/
def Obligations.OpcodeTableWordsDecode : Prop :=
  ∀ (a b : GString) (v n : Nat),
    decode ⟨0b000#3, a, b, v, n⟩ = .instr (.divRU a b) ∧
    decode ⟨0b001#3, a, b, v, n⟩ = .instr (.divRS a b) ∧
    decode ⟨0b010#3, a, b, v, n⟩ = .instr (.divNRU a b) ∧
    decode ⟨0b011#3, a, b, v, n⟩ = .instr (.divNRS a b) ∧
    decode ⟨0b100#3, a, b, v, n⟩ = .instr (.decode a) ∧
    decode ⟨0b101#3, a, b, v, n⟩ = .instr (.encode v n)

/-- Decoding an encoded command gives it back, every command and every operand. -/
def Obligations.EncodeThenDecodeGivesCommand : Prop :=
  ∀ i : Instr, decode (encode i) = .instr i

/-- Encoding a decoded tuple gives back its word and the inputs the command uses; the unused ones are empty or 0, which is
the model's choice (log 20). -/
def Obligations.DecodeThenEncodeGivesTuple : Prop :=
  ∀ (c : Command) (i : Instr), decode c = .instr i →
    encode i =
      { cmd := c.cmd
        opa := if c.cmd = 0b101#3 then [] else c.opa
        opb := if c.cmd.getLsbD 2 = true then [] else c.opb
        val := if c.cmd = 0b101#3 then c.val else 0
        width := if c.cmd = 0b101#3 then c.width else 0 }

/-- The two reserved words start no call (R57, the spec's decision D1); every other word is a command. -/
def Obligations.ReservedWordsStartNoCall : Prop :=
  ∀ (c : Command) (s : State) (rest : List Input),
    ((c.cmd = 0b110#3 ∨ c.cmd = 0b111#3) →
      step { s with inputs := .call c :: rest } = .refused (.reservedCommand c.cmd) ∧
      step { s with inputs := .start c :: rest } = .refused (.reservedCommand c.cmd)) ∧
    (c.cmd ≠ 0b110#3 → c.cmd ≠ 0b111#3 → ∃ i, decode c = .instr i)

/-! ## Steps and the host -/

/-- A step runs the command that the next event presents: as one transition where it is a call, and to the start of the call
where it is a start. The events are the model's (log 1, log 3). -/
def Obligations.StepRunsPresentedCommand : Prop :=
  ∀ (c : Command) (i : Instr) (s : State) (rest : List Input), decode c = .instr i →
    step { s with inputs := .call c :: rest } = exec i { s with inputs := rest } ∧
    step { s with inputs := .start c :: rest } = beginCall i { s with inputs := rest }

/-- With nothing presented a step is one move of the sequencer, and the idle block stays as it is (log 18). -/
def Obligations.QuietStepMovesSequencer : Prop :=
  ∀ (s : State) (rest : List Input),
    step { s with inputs := .quiet :: rest } = advance { s with inputs := rest } ∧
    (s.inputs = [] → step s = advance s) ∧
    (s.inputs = [] → s.phase = .idle → step s = .next s)

/-- A command presented while a call is in progress (PREPARE to SIGN, or CODEC) is refused, whichever command it is. -/
def Obligations.CommandWhileBusyRefused : Prop :=
  ∀ (i : Instr) (s : State), inCall s.phase = true →
    exec i s = .refused .commandWhileBusy ∧ beginCall i s = .refused .commandWhileBusy

/-- Inputs outside their types are refused when they are presented, whichever command it is (R5, R11, the spec's decision D6;
that this comes before any other check is the model's, log 15). -/
def Obligations.InputsBeyondTypesRefused : Prop :=
  ∀ (i : Instr) (s : State), inCall s.phase = false → i.wellFormed s.cap = false →
    exec i s = .refused .beyondCapacity ∧ beginCall i s = .refused .beyondCapacity

/-- R11, R12 (the spec's decision D14): the start of a call samples the inputs and the selectors, and leaves the other working registers, `STATUS` and
the inputs to come as they were; a block in DONE has gone to IDLE first (R24; that a command may find it there is the model's,
log 21). -/
def Obligations.StartSamplesInputs : Prop :=
  ∀ (i : Instr) (s : State), inCall s.phase = false → i.wellFormed s.cap = true →
    ∃ t, beginCall i s = .next t ∧
      t.phase = (if (encode i).cmd.getLsbD 2 = true then .codec else .prepare) ∧
      t.work =
        { (if s.phase = .done then release s else s).work with
          unit := if (encode i).cmd.getLsbD 2 = true then .binaryCodec else .divisionEngine
          alg := if (encode i).cmd.getLsbD 1 = true then .nonRestoring else .restoring
          mode := if (encode i).cmd.getLsbD 0 = true then .signed else .unsigned
          dir := if (encode i).cmd.getLsbD 0 = true then .encode else .decode
          opa := (encode i).opa
          opb := (encode i).opb
          val := (encode i).val
          width := (encode i).width } ∧
      t.status = s.status ∧ t.inputs = s.inputs ∧ t.cap = s.cap

/-- R41 (the spec's decision D14): what the harness does later is not seen by a call in progress: changing the inputs to come changes nothing but
themselves. -/
def Obligations.RunningCallIgnoresInputs : Prop :=
  ∀ (s : State) (x : List Input),
    advance { s with inputs := x } = andThen (advance s) fun t => .next { t with inputs := x }

/-- After reset the sequencer is idle and there is no result; from any state a reset step leads to IDLE, abandons a call in
progress and leaves no result. A register read after reset answers whatever it holds, which is the model's form (log 13); the
values are the model's at `State.reset` (log 4), free after a reset step (log 5), and are not stated. -/
def Obligations.ResetLeavesIdleWithoutResult : Prop :=
  State.reset.phase = .idle ∧ callResult State.reset = none ∧
  (∀ reg, readResult reg State.reset = .next (portValue reg State.reset)) ∧
  ∀ (s : State) (rest : List Input),
    EndsIdle (step { s with inputs := .reset :: rest }) fun t =>
      t.inputs = rest ∧ t.cap = s.cap ∧ callResult t = none ∧
      ∀ reg, readResult reg t = .next (portValue reg t)

/-- A batch goes on after any call, an error included: the second of two calls gives the result it would have given alone. -/
def Obligations.BatchGoesOnAfterAnyCall : Prop :=
  ∀ (c₁ c₂ : Command) (i₁ i₂ : Instr) (s t : State) (rest : List Input),
    decode c₁ = .instr i₁ → decode c₂ = .instr i₂ → inCall s.phase = false →
    step { s with inputs := .call c₁ :: .call c₂ :: rest } = .next t →
    step t = exec i₂ { t with inputs := rest } ∧
    ∀ u, exec i₂ s = .next u → ∃ v, step t = .next v ∧ callResult v = callResult u

/-! ## BinaryCodec -/

/-- R34: a string stands for the sum of its bits, the first glyph the most significant. -/
def Obligations.ValueIsBigEndianSum : Prop :=
  ∀ s : GString,
    value s = ∑ i ∈ Finset.range s.length, bitValue (s.getD i glyphZero) * 2 ^ (s.length - 1 - i)

/-- R66: `DECODE` gives the value of a string of valid glyphs, and `InvalidFormat` without a value for any other. -/
def Obligations.DecodeCommandMeaning : Prop :=
  ∀ (g : GString) (s : State),
    (inCall s.phase = false → s.cap.fitsString g.length = true → validString g = true → s.cap.fitsValue (value g) = true →
      EndsIdle (exec (.decode g) s) fun t => t.status = .ok ∧ t.readable = .value ∧ t.results.value = value g) ∧
    (inCall s.phase = false → s.cap.fitsString g.length = true → validString g = false →
      EndsIdle (exec (.decode g) s) fun t => t.status = .invalidFormat ∧ t.readable = .statusOnly)

/-- R67: the empty string decodes to 0; a value beyond `VAL_BITS` is refused; strings of up to `VAL_BITS` glyphs always fit. -/
def Obligations.DecodeEdgeCases : Prop :=
  ∀ s : State,
    (inCall s.phase = false →
      EndsIdle (exec (.decode []) s) fun t => t.status = .ok ∧ t.readable = .value ∧ t.results.value = 0) ∧
    (∀ g, inCall s.phase = false → s.cap.fitsString g.length = true → validString g = true →
      s.cap.fitsValue (value g) = false → exec (.decode g) s = .refused .beyondCapacity) ∧
    (∀ g bits, s.cap.valBits = some bits → g.length ≤ bits → s.cap.fitsValue (value g) = true)

/-- R69: `ENCODE` of a value that fits writes its binary digits, the most significant first, exactly `WIDTH` of them. -/
def Obligations.EncodeCommandMeaning : Prop :=
  ∀ (v n : Nat) (s : State),
    inCall s.phase = false → s.cap.fitsValue v = true → s.cap.fitsString n = true → v < 2 ^ n →
    EndsIdle (exec (.encode v n) s) fun t =>
      t.status = .ok ∧ t.readable = .string ∧ t.results.str.length = n ∧
      ∀ i, i < n → memRead t.results.str i = some (glyphOfBit (v.testBit (n - 1 - i)))

/-- `ENCODE` of a value that does not fit still ends `Ok` with a string of `WIDTH` valid glyphs; which glyphs is left open.
That it completes is the model's choice, the spec's parameter `encode_overflow` (log 7). -/
def Obligations.EncodeUnfittingValueCompletes : Prop :=
  ∀ (v n : Nat) (s : State),
    inCall s.phase = false → s.cap.fitsValue v = true → s.cap.fitsString n = true → 2 ^ n ≤ v →
    EndsIdle (exec (.encode v n) s) fun t =>
      t.status = .ok ∧ t.readable = .string ∧ t.results.str.length = n ∧ validString t.results.str = true

/-- R70: `decode(encode(v, w)) = v` for `0 <= v < 2^w`, run as two calls. -/
def Obligations.CodecRoundTrip : Prop :=
  ∀ (v n : Nat) (s : State),
    inCall s.phase = false → s.cap.fitsValue v = true → s.cap.fitsString n = true → v < 2 ^ n →
    EndsIdle (exec (.encode v n) s) fun t =>
      EndsIdle (exec (.decode t.results.str) t) fun u =>
        u.status = .ok ∧ u.readable = .value ∧ u.results.value = v

/-- `encode(decode(s), len(s)) = s` for every string of valid glyphs, run as two calls: the converse law, which R70 marks as the
spec's own derivation. -/
def Obligations.CodecConverseRoundTrip : Prop :=
  ∀ (g : GString) (s : State),
    inCall s.phase = false → s.cap.fitsString g.length = true → validString g = true → s.cap.fitsValue (value g) = true →
    EndsIdle (exec (.decode g) s) fun t =>
      EndsIdle (exec (.encode t.results.value g.length) t) fun u =>
        u.status = .ok ∧ u.readable = .string ∧ u.results.str = g

/-- R32: a write to the output buffer sets the glyph at its index and leaves every other index as it was. -/
def Obligations.BufferWriteSetsOneGlyph : Prop :=
  ∀ (buffer : GString) (i j : Nat) (g : Glyph), i ≤ buffer.length →
    memRead (memWrite buffer i g) i = some g ∧
    (j ≠ i → memRead (memWrite buffer i g) j = memRead buffer j)

/-! ## Operand preparation and the pre-flight check -/

/-- R76: PREPARE reads both operands by their format, takes `W` from the divisor string, and writes `W`, `SN`, `SD`, `N`, `D`
and nothing else. -/
def Obligations.PrepareAssemblesOperands : Prop :=
  ∀ (m : Mode) (s : State), s.work.mode = m →
    (WellSpelled m s.work.opa s.work.opb → WithinCapacity m s.work.opa s.work.opb s →
      magOf m s.work.opa < 2 ^ (2 * wordSize m s.work.opb) →
      preparePhase s = .next
        { s with
          phase := .check
          work :=
            { s.work with
              w := s.work.opb.length - (if m = .signed then 1 else 0)
              sn := signOf m s.work.opa
              sd := signOf m s.work.opb
              n := magOf m s.work.opa
              d := magOf m s.work.opb } }) ∧
    (lacksSignGlyph m s.work.opa = false → lacksSignGlyph m s.work.opb = false →
      (validString s.work.opa = false ∨ validString s.work.opb = false) →
      preparePhase s = .next (raiseError .invalidFormat s))

/-- The refused shapes of a divide command: an operand without its sign glyph, a word size or a magnitude beyond capacity, a
dividend of `2^(2w)` or more (the spec's decisions D9, D6, D8).
That the capacity check comes before the test of the dividend is the model's choice, R76 does not place it (log 15). -/
def Obligations.RefusedOperandShapes : Prop :=
  ∀ (alg : Alg) (m : Mode) (a b : GString) (s : State), Presentable a b s →
    ((lacksSignGlyph m a = true ∨ lacksSignGlyph m b = true) →
      exec (Instr.divide alg m a b) s = .refused .signGlyphMissing) ∧
    (WellSpelled m a b → ¬ WithinCapacity m a b s →
      exec (Instr.divide alg m a b) s = .refused .beyondCapacity) ∧
    (WellSpelled m a b → WithinCapacity m a b s → 2 ^ (2 * wordSize m b) ≤ magOf m a →
      exec (Instr.divide alg m a b) s = .refused .dividendTooLarge)

/-- R77: a pair of operands with an invalid glyph ends in `InvalidFormat`, also where the pre-flight check would fail. -/
def Obligations.InvalidFormatBeforeOverflow : Prop :=
  ∀ (alg : Alg) (m : Mode) (a b : GString) (s : State), Presentable a b s →
    lacksSignGlyph m a = false → lacksSignGlyph m b = false →
    (validString a = false ∨ validString b = false) →
    EndsIdle (exec (Instr.divide alg m a b) s) fun t =>
      t.status = .invalidFormat ∧ callResult t = some .invalidFormat

/-- R78: `Overflow` exactly where the high half of the dividend is at least the divisor; the check writes no working register
and no result. -/
def Obligations.OverflowExactlyWhenHighHalfReachesDivisor : Prop :=
  (∀ (alg : Alg) (m : Mode) (a b : GString) (s : State), DivideReady m a b s →
    EndsIdle (exec (Instr.divide alg m a b) s) fun t =>
      (t.status = .overflow ↔
        magOf m b ≤ (magOf m a >>> wordSize m b) &&& ((1 <<< wordSize m b) - 1)) ∧
      (t.status = .overflow ∨ t.status = .ok)) ∧
  (∀ s : State,
    (checkPhase s).work = s.work ∧ (checkPhase s).results = s.results ∧
    ((checkPhase s).phase = .done ∧ (checkPhase s).status = .overflow ∨
      (checkPhase s).phase = .setup ∧ (checkPhase s).status = s.status))

/-- What the check means (the spec's derivation in R87): the true quotient does not fit in `w` bits, or the divisor is 0. -/
def Obligations.OverflowMeansQuotientDoesNotFit : Prop :=
  ∀ w n d : Nat, n < 2 ^ (2 * w) →
    highHalf w n = n / 2 ^ w ∧
    (1 ≤ d → (overflowCondition w n d = true ↔ d * 2 ^ w ≤ n)) ∧
    (1 ≤ d → (overflowCondition w n d = true ↔ 2 ^ w ≤ n / d)) ∧
    (d = 0 → overflowCondition w n d = true) ∧
    (overflowCondition w n d = false ↔ 1 ≤ d ∧ n / d ≤ 2 ^ w - 1)

/-- The spec's derivation in R29: a divisor of zero always overflows; a word size of zero overflows for dividend 0 and is refused otherwise; a call that
passes the check has `1 <= W` and `1 <= D <= 2^W - 1`. -/
def Obligations.ZeroDivisorOverflows : Prop :=
  ∀ (alg : Alg) (m : Mode) (a b : GString) (s : State),
    (DivideReady m a b s → magOf m b = 0 →
      EndsIdle (exec (Instr.divide alg m a b) s) fun t => t.status = .overflow) ∧
    (wordSize m b = 0 → magOf m b = 0) ∧
    (Presentable a b s → WithinCapacity m a b s → WellSpelled m a b → wordSize m b = 0 → 1 ≤ magOf m a →
      exec (Instr.divide alg m a b) s = .refused .dividendTooLarge) ∧
    (DivideReady m a b s → CheckPasses m a b →
      1 ≤ wordSize m b ∧ 1 ≤ magOf m b ∧ magOf m b ≤ 2 ^ wordSize m b - 1)

/-! ## The frame of a divide command -/

/-- The values of the addends for a divisor that reaches SETUP (the spec's derivation in R80). -/
def Obligations.AddendValues : Prop :=
  ∀ w d : Nat, 1 ≤ d → d ≤ 2 ^ w - 1 →
    complementUnder (w + 1) d = 2 ^ (w + 1) - 1 - d ∧
    complementDivisor w d = 2 ^ (w + 1) - d ∧
    (complementDivisor w d).testBit w = true ∧
    alignedDivisor w d = d * 2 ^ w ∧ alignedDivisor w d < 2 ^ (2 * w) ∧ alignedDivisor w d % 2 ^ w = 0 ∧
    alignedComplement w d = complementDivisor w d <<< w ∧
    alignedComplement w d = 2 ^ (2 * w + 1) - d * 2 ^ w ∧
    2 ^ (2 * w) + 2 ^ w ≤ alignedComplement w d ∧ alignedComplement w d ≤ 2 ^ (2 * w + 1) - 2 ^ w ∧
    alignedComplement w d % 2 ^ w = 0 ∧
    alignedComplement w d + alignedDivisor w d = 2 ^ (2 * w + 1)

/-- R79, R81: SETUP writes `DA`, `CA`, loads `ACC` with the dividend, clears `ITER` and `OPC`, and changes no other register. -/
def Obligations.SetupLoadsRegisters : Prop :=
  ∀ s : State,
    setupPhase s =
      { s with
        phase := if 0 < s.work.w then .iterate else .extract
        work :=
          { s.work with
            da := s.work.d <<< s.work.w
            ca := (((mask (s.work.w + 1) ^^^ (s.work.d &&& mask (s.work.w + 1))) + 1) <<< s.work.w)
                    ||| (1 <<< (2 * s.work.w))
            acc := s.work.n
            iter := 0
            opc := 0 } }

/-- R82: EXTRACT takes the low half as quotient and the high half as remainder, and changes `ACC`, the two results and the
phase only. -/
def Obligations.ExtractTakesHalves : Prop :=
  ∀ s : State,
    extractPhase s =
      { s with
        phase := .sign
        work :=
          { s.work with
            acc := s.work.acc % 2 ^ (2 * s.work.w)
            qmag := s.work.acc % 2 ^ s.work.w
            rem := s.work.acc / 2 ^ s.work.w % 2 ^ s.work.w } }

/-- R84: the quotient is negated exactly in signed-magnitude mode with differing sign flags; the remainder never is. -/
def Obligations.SignRuleNegatesQuotientOnly : Prop :=
  ∀ s : State,
    (s.work.mode = .signed → s.work.sn ≠ s.work.sd → (signPhase s).results.q = -(s.work.qmag : Int)) ∧
    (s.work.mode = .signed → s.work.sn = s.work.sd → (signPhase s).results.q = (s.work.qmag : Int)) ∧
    (s.work.mode = .unsigned → (signPhase s).results.q = (s.work.qmag : Int)) ∧
    (signPhase s).results.r = s.work.rem ∧ (signPhase s).results.opcOut = s.work.opc ∧
    (signPhase s).status = .ok ∧ (signPhase s).phase = .done ∧ (signPhase s).work = s.work

/-- R24 (the spec's decision D3): the phases follow one another as the table says, under the conditions it names. -/
def Obligations.PhasesFollowTable : Prop :=
  ∀ s t : State, advance s = .next t →
    t.phase ∈ nextPhases s.phase ∧
    (s.phase = .prepare → t.phase = .done → t.status = .invalidFormat) ∧
    (s.phase = .check →
      (t.phase = .done ↔ s.work.d ≤ highHalf s.work.w s.work.n) ∧ (t.phase = .done → t.status = .overflow)) ∧
    (s.phase = .setup → (t.phase = .iterate ↔ 0 < s.work.w)) ∧
    (s.phase = .iterate → t.work.iter = s.work.iter + 1 ∧
      (t.phase = .iterate ↔ t.work.iter < t.work.w) ∧
      (t.phase = .correct ↔ t.work.w ≤ t.work.iter ∧ t.work.alg = .nonRestoring) ∧
      (t.phase = .extract ↔ t.work.w ≤ t.work.iter ∧ t.work.alg = .restoring)) ∧
    (s.phase = .sign → t.status = .ok ∧ t.readable = .division)

/-- No phase before SIGN and CODEC writes a result register, only an error, SIGN and CODEC write `STATUS`, and no phase changes
the capacities or the inputs to come. -/
def Obligations.PhaseFrame : Prop :=
  ∀ s t : State, advance s = .next t →
    t.cap = s.cap ∧ t.inputs = s.inputs ∧
    (s.phase ≠ .sign → s.phase ≠ .codec → t.results = s.results) ∧
    (t.phase ≠ .done → t.status = s.status) ∧
    (s.phase = .sign → t.results.value = s.results.value ∧ t.results.str = s.results.str) ∧
    (s.phase = .codec → t.results.q = s.results.q ∧ t.results.r = s.results.r ∧ t.results.opcOut = s.results.opcOut) ∧
    (s.phase = .codec → s.work.dir = .decode → t.results.str = s.results.str) ∧
    (s.phase = .codec → s.work.dir = .encode → t.results.value = s.results.value)

/-! ## The two loops -/

/-- R93: one restoring iteration, step by step: mask then shift, trial addition of `CA`, counted; quotient bit 1 where the test
bit is clear; else `DA` added, counted. Only `ACC`, `OPC` and `ITER` change. -/
def Obligations.RestoringIterationSteps : Prop :=
  ∀ k : Work,
    let trial := 2 * (k.acc % 2 ^ (2 * k.w + 1)) + k.ca
    (trial.testBit (2 * k.w) = false →
      restoringIteration k = { k with acc := trial ||| 1, opc := k.opc + 1, iter := k.iter + 1 }) ∧
    (trial.testBit (2 * k.w) = true →
      restoringIteration k = { k with acc := trial + k.da, opc := k.opc + 2, iter := k.iter + 1 })

/-- One restoring iteration (the spec's derivation in R97) from an accumulator with test bit 0 and high half below the divisor; the value of `ACC`,
the count, the bound, and that only `ACC`, `OPC` and `ITER` change. -/
def Obligations.RestoringIterationValue : Prop :=
  ∀ (k : Work) (A : Nat),
    A = k.acc % 2 ^ (2 * k.w + 1) → A < 2 ^ (2 * k.w) → A / 2 ^ k.w < k.d → k.d < 2 ^ k.w →
    k.da = k.d * 2 ^ k.w → k.ca = 2 ^ (2 * k.w + 1) - k.d * 2 ^ k.w →
    let k' := restoringIteration k
    (k.d ≤ 2 * A / 2 ^ k.w →
      k' = { k with acc := 2 ^ (2 * k.w + 1) + (2 * A - k.d * 2 ^ k.w) + 1, opc := k.opc + 1, iter := k.iter + 1 }) ∧
    (2 * A / 2 ^ k.w < k.d →
      k' = { k with acc := 2 ^ (2 * k.w + 1) + 2 * A, opc := k.opc + 2, iter := k.iter + 1 }) ∧
    k'.acc < 2 ^ (2 * k.w + 2) ∧
    k'.acc % 2 ^ (2 * k.w + 1) < 2 ^ (2 * k.w) ∧
    k'.acc % 2 ^ (2 * k.w + 1) / 2 ^ k.w < k.d

/-- After `w` restoring iterations the high half is the remainder and the low half the quotient (the spec's derivation in R97),
and the count is that of R96. -/
def Obligations.RestoringLoopDivides : Prop :=
  ∀ k : Work,
    k.n < 2 ^ (2 * k.w) → k.n / 2 ^ k.w < k.d → k.d < 2 ^ k.w →
    k.da = k.d * 2 ^ k.w → k.ca = 2 ^ (2 * k.w + 1) - k.d * 2 ^ k.w →
    k.acc = k.n → k.opc = 0 → k.iter = 0 →
    let k' := Nat.iterate restoringIteration k.w k
    k'.acc % 2 ^ (2 * k.w + 1) = k.n % k.d * 2 ^ k.w + k.n / k.d ∧
    k'.opc = 2 * k.w - popcount k.w (k.n / k.d) ∧ k'.iter = k.w

/-- R101: one non-restoring iteration, step by step: keep the test bit, shift then mask, add `CA` or `DA` by the kept bit, counted
once; quotient bit from the new test bit. Only `PT`, `ACC`, `OPC` and `ITER` change. From a loaded dividend the kept bit is 0. -/
def Obligations.NonRestoringIterationSteps : Prop :=
  ∀ k : Work,
    let shifted := 2 * k.acc % 2 ^ (2 * k.w + 1)
    let sum := if k.acc.testBit (2 * k.w) = true then shifted + k.da else shifted + k.ca
    (nonRestoringIteration k =
      { k with
        pt := k.acc.testBit (2 * k.w)
        acc := if sum.testBit (2 * k.w) = true then sum else sum ||| 1
        opc := k.opc + 1
        iter := k.iter + 1 }) ∧
    (k.acc < 2 ^ (2 * k.w) → (nonRestoringIteration k).pt = false)

/-- The spec's derivation in R106: after any number of iterations the non-restoring accumulator, read in `2w+1` bits, is the restoring one where its
test bit is 0, and less the aligned divisor where it is 1; after the final correction the two agree; and the count is one per
iteration (R107). -/
def Obligations.NonRestoringLoopTracksRestoring : Prop :=
  ∀ (k : Work) (j : Nat),
    k.n < 2 ^ (2 * k.w) → k.n / 2 ^ k.w < k.d → k.d < 2 ^ k.w →
    k.da = k.d * 2 ^ k.w → k.ca = 2 ^ (2 * k.w + 1) - k.d * 2 ^ k.w →
    k.acc = k.n → k.opc = 0 → k.iter = 0 → j ≤ k.w →
    let r := Nat.iterate restoringIteration j k
    let v := Nat.iterate nonRestoringIteration j k
    let M := 2 ^ (2 * k.w + 1)
    (v.acc.testBit (2 * k.w) = false → v.acc % M = r.acc % M) ∧
    (v.acc.testBit (2 * k.w) = true → v.acc % M + k.d * 2 ^ k.w = r.acc % M + M) ∧
    v.acc % 2 ^ j = r.acc % 2 ^ j ∧
    (finalCorrection v).acc % M = r.acc % M ∧ v.acc < 2 * M ∧ (finalCorrection v).acc < 2 * M ∧
    v.opc = j ∧ v.iter = j

/-- R103: the correction adds the aligned divisor where the test bit is 1, is not counted, and changes nothing else; the low half
is already final, and its last bit is already 0 in this case. -/
def Obligations.CorrectionIsNotCounted : Prop :=
  ∀ k : Work,
    (k.acc.testBit (2 * k.w) = true → finalCorrection k = { k with acc := k.acc + k.da }) ∧
    (k.acc.testBit (2 * k.w) = false → finalCorrection k = k) ∧
    (k.da % 2 ^ k.w = 0 → (finalCorrection k).acc % 2 ^ k.w = k.acc % 2 ^ k.w) ∧
    (0 < k.w → k.da % 2 ^ k.w = 0 → k.ca % 2 ^ k.w = 0 →
      (nonRestoringIteration k).acc.testBit (2 * k.w) = true → (nonRestoringIteration k).acc % 2 = 0)

/-- `ACC` never holds (the spec's derivation in R14) a value of `2^(2w+2)` or more while the machine is in a phase that uses it. -/
def Obligations.AccumulatorStaysInWidth : Prop :=
  ∀ s : State, MachineInv s →
    (s.phase = .iterate ∨ s.phase = .correct ∨ s.phase = .extract) →
    s.work.acc < 2 ^ (2 * s.work.w + 2)

/-! ## The divide commands -/

/-- R94: `DIV.R.U`. -/
def Obligations.UnsignedRestoringDivision : Prop :=
  DivideMeaning .restoring .unsigned .divRU

/-- R95: `DIV.R.S`. -/
def Obligations.SignedRestoringDivision : Prop :=
  DivideMeaning .restoring .signed .divRS

/-- R104: `DIV.NR.U`. -/
def Obligations.UnsignedNonRestoringDivision : Prop :=
  DivideMeaning .nonRestoring .unsigned .divNRU

/-- R105: `DIV.NR.S`. -/
def Obligations.SignedNonRestoringDivision : Prop :=
  DivideMeaning .nonRestoring .signed .divNRS

/-- R85: the division identity in magnitude form, and the bounds of the remainder, for both algorithms and both modes. -/
def Obligations.DivisionIdentity : Prop :=
  ∀ (alg : Alg) (m : Mode) (a b : GString) (s : State), DivideReady m a b s → CheckPasses m a b →
    EndsIdle (exec (Instr.divide alg m a b) s) fun t =>
      t.status = .ok ∧ t.results.q.natAbs * magOf m b + t.results.r = magOf m a ∧ t.results.r < magOf m b

/-- R88: the two algorithms return identical quotient and remainder; they differ in the operation count only, at most two adds
per restoring iteration against exactly one per non-restoring. -/
def Obligations.AlgorithmsAgree : Prop :=
  ∀ (m : Mode) (a b : GString) (s : State), DivideReady m a b s → CheckPasses m a b →
    EndsIdle (exec (Instr.divide .restoring m a b) s) fun t =>
      EndsIdle (exec (Instr.divide .nonRestoring m a b) s) fun u =>
        t.status = .ok ∧ u.status = .ok ∧
        t.results.q = u.results.q ∧ t.results.r = u.results.r ∧
        wordSize m b ≤ t.results.opcOut ∧ t.results.opcOut ≤ 2 * wordSize m b ∧ u.results.opcOut = wordSize m b

/-- The restoring count lies in `[w, 2w]`; exactly, it is `2w - popcount(qmag)`, and both bounds are reached, which R96 marks as
the spec's own derivation. -/
def Obligations.RestoringOperationCount : Prop :=
  (∀ (m : Mode) (a b : GString) (s : State), DivideReady m a b s → CheckPasses m a b →
    EndsIdle (exec (Instr.divide .restoring m a b) s) fun t =>
      t.results.opcOut = 2 * wordSize m b - popcount (wordSize m b) t.results.q.natAbs ∧
      t.results.opcOut =
        wordSize m b +
          ((List.range (wordSize m b)).filter fun i => !(t.results.q.natAbs).testBit i).length ∧
      wordSize m b ≤ t.results.opcOut ∧ t.results.opcOut ≤ 2 * wordSize m b ∧
      (t.results.q.natAbs = 2 ^ wordSize m b - 1 → t.results.opcOut = wordSize m b) ∧
      (t.results.q.natAbs = 0 → t.results.opcOut = 2 * wordSize m b))

/-- R107: the non-restoring count is exactly the word size, for every valid input. -/
def Obligations.NonRestoringOperationCount : Prop :=
  ∀ (m : Mode) (a b : GString) (s : State), DivideReady m a b s → CheckPasses m a b →
    EndsIdle (exec (Instr.divide .nonRestoring m a b) s) fun t => t.results.opcOut = wordSize m b

/-- The spec's derivation in R52: leading zeros of the dividend's magnitude do not change the result. -/
def Obligations.DividendLeadingZerosDoNotMatter : Prop :=
  ∀ (alg : Alg) (a b : GString) (sign : Glyph) (s : State),
    (DivideReady .unsigned a b s → s.cap.fitsString (a.length + 1) = true →
      EndsIdle (exec (Instr.divide alg .unsigned a b) s) fun t =>
        EndsIdle (exec (Instr.divide alg .unsigned (glyphZero :: a) b) s) fun u =>
          callResult u = callResult t) ∧
    (DivideReady .signed (sign :: a) b s → s.cap.fitsString (a.length + 2) = true →
      EndsIdle (exec (Instr.divide alg .signed (sign :: a) b) s) fun t =>
        EndsIdle (exec (Instr.divide alg .signed (sign :: glyphZero :: a) b) s) fun u =>
          callResult u = callResult t)

/-! ## Results and what may be read -/

/-- R20 (the spec's decision D2): the codes of `STATUS`; 3 is never produced. -/
def Obligations.StatusCodes : Prop :=
  statusCode .ok = 0#2 ∧ statusCode .overflow = 1#2 ∧ statusCode .invalidFormat = 2#2 ∧
  ∀ x : Status, statusCode x ≠ 3#2

/-- R22 (the spec's decision D11): on ports wide enough for the word size, the encodings of quotient, remainder and count stand for the integers. -/
def Obligations.PortEncodingsAreFaithful : Prop :=
  ∀ (alg : Alg) (m : Mode) (a b : GString) (s : State) (wMax : Nat),
    DivideReady m a b s → CheckPasses m a b → wordSize m b ≤ wMax →
    EndsIdle (exec (Instr.divide alg m a b) s) fun t =>
      -(2 ^ wordSize m b - 1 : Int) ≤ t.results.q ∧ t.results.q ≤ 2 ^ wordSize m b - 1 ∧
      t.results.r ≤ 2 ^ wordSize m b - 2 ∧
      (portQ wMax t.results.q).toInt = t.results.q ∧
      (portR wMax t.results.r).toNat = t.results.r ∧
      (portOpcOut wMax t.results.opcOut).toNat = t.results.opcOut

/-- R116: an error writes `STATUS` and ends the call, and writes no working register and no result register. -/
def Obligations.ErrorWritesStatusOnly : Prop :=
  ∀ (e : Status) (s : State),
    (raiseError e s).status = e ∧ (raiseError e s).phase = .done ∧
    (raiseError e s).results = s.results ∧ (raiseError e s).work = s.work ∧
    (raiseError e s).inputs = s.inputs ∧ (raiseError e s).cap = s.cap ∧
    (∃ t, advance (raiseError e s) = .next t ∧ t.phase = .idle ∧ t.status = e ∧ t.results = s.results)

/-- R21, R23 (the spec's decision D12): after a call that ended in an error no result register can be read and `STATUS` can; after one that ended `Ok`
exactly the registers of its shape can. A read that is not allowed being a fault is the model's form (log 13). -/
def Obligations.ReadableAfterCall : Prop :=
  ∀ (i : Instr) (s t : State) (reg : ResultReg), exec i s = .next t →
    readResult .status t = .next (.status t.status) ∧
    (t.status ≠ .ok → reg ≠ .status → readResult reg t = .fault (.unspecifiedRead reg)) ∧
    (t.status = .ok →
      match i with
      | .decode _ =>
        readResult .value t = .next (.natural t.results.value) ∧
        (reg ≠ .status → reg ≠ .value → readResult reg t = .fault (.unspecifiedRead reg))
      | .encode _ _ =>
        readResult .str t = .next (.string t.results.str) ∧
        (reg ≠ .status → reg ≠ .str → readResult reg t = .fault (.unspecifiedRead reg))
      | _ =>
        readResult .q t = .next (.integer t.results.q) ∧ readResult .r t = .next (.natural t.results.r) ∧
        readResult .opcOut t = .next (.natural t.results.opcOut) ∧
        (reg = .value ∨ reg = .str → readResult reg t = .fault (.unspecifiedRead reg)))

/-- Once a call has begun no result register can be read (R23, the spec's decision D12); a read that is allowed changes
nothing but the event it uses up, and that DONE is left for IDLE (log 21); any other read is a fault, which is the model's form
(log 13). -/
def Obligations.BegunCallHidesResults : Prop :=
  (∀ (i : Instr) (s t : State) (reg : ResultReg), beginCall i s = .next t → reg ≠ .status →
    readResult reg t = .fault (.unspecifiedRead reg)) ∧
  (∀ (s : State) (reg : ResultReg) (rest : List Input), canRead s.readable reg = true →
    (s.phase ≠ .done → step { s with inputs := .read reg :: rest } = .next { s with inputs := rest }) ∧
    (s.phase = .done → step { s with inputs := .read reg :: rest } = .next (release { s with inputs := rest }))) ∧
  (∀ (s : State) (reg : ResultReg) (rest : List Input), canRead s.readable reg = false →
    step { s with inputs := .read reg :: rest } = .fault (.unspecifiedRead reg))

/-! ## The machine as a whole -/

/-- Every call ends: in a next state that is idle with a result of the command's shape, or in a refusal the spec names, and in
that only under its condition; it never faults (R7).
That `ENCODE` of a value that does not fit its width ends in a result is the model's choice (log 7). -/
def Obligations.EveryCallEnds : Prop :=
  ∀ (i : Instr) (s : State), inCall s.phase = false →
    (EndsIdle (exec i s) fun t =>
      match i with
      | .decode _ => (∃ v, callResult t = some (.value v)) ∨ callResult t = some .invalidFormat
      | .encode _ _ => ∃ g, callResult t = some (.string g)
      | _ => (∃ q r n, callResult t = some (.division q r n)) ∨ callResult t = some .overflow ∨
          callResult t = some .invalidFormat) ∨
    (exec i s = .refused .signGlyphMissing ∧
      ∃ alg m a b, i = Instr.divide alg m a b ∧ (lacksSignGlyph m a = true ∨ lacksSignGlyph m b = true)) ∨
    (exec i s = .refused .dividendTooLarge ∧
      ∃ alg m a b, i = Instr.divide alg m a b ∧ 2 ^ (2 * wordSize m b) ≤ magOf m a) ∨
    (exec i s = .refused .beyondCapacity ∧
      (i.wellFormed s.cap = false ∨
        (∃ alg m a b, i = Instr.divide alg m a b ∧ ¬ WithinCapacity m a b s) ∨
        ∃ g, i = .decode g ∧ s.cap.fitsValue (value g) = false))

/-- What a command leaves alone: the inputs to come and the capacities; no call was in progress, and the block is idle after it. -/
def Obligations.CommandFrame : Prop :=
  ∀ (i : Instr) (s t : State), exec i s = .next t →
    t.inputs = s.inputs ∧ t.cap = s.cap ∧ t.phase = .idle ∧ inCall s.phase = false

/-- R89: a call is a function of its inputs alone: from any two states without a call in progress, of blocks of the same capacities it gives the same
result, or the same refusal. -/
def Obligations.CallIsPure : Prop :=
  ∀ (i : Instr) (s₁ s₂ : State), inCall s₁.phase = false → inCall s₂.phase = false → s₁.cap = s₂.cap →
    (∀ t₁, exec i s₁ = .next t₁ →
      ∃ t₂, exec i s₂ = .next t₂ ∧ t₂.status = t₁.status ∧ callResult t₂ = callResult t₁) ∧
    (∀ r, exec i s₁ = .refused r → exec i s₂ = .refused r)

/-- R6: the call as one transition and the phases of the sequencer agree, to the last register: from the state in which the call
begins, enough moves of the sequencer lead to exactly what the one transition answers. -/
def Obligations.PhasesAgreeWithCall : Prop :=
  ∀ (i : Instr) (s t : State) (n : Nat), beginCall i s = .next t → callBound i ≤ n →
    runPhases n t = exec i s

/-- The invariant holds right after reset. -/
def Obligations.ResetMeetsInvariant : Prop := MachineInv State.reset

/-- Every step keeps the invariant: in every phase the operand registers, the addends, the accumulator, the counter and the
results hold what the rules say they hold at that point. -/
def Obligations.StepKeepsInvariant : Prop :=
  ∀ s t : State, MachineInv s → step s = .next t → MachineInv t
end

