-- ==== Sys2Proof/Laws/State.lean ====
section
/-! SUPPORT. What each update of the state does to each of its fields: one lemma per field per update. -/

namespace Sys2Proof.Machine

@[simp] theorem raiseError_phase (e : Status) (s : State) : (raiseError e s).phase = .done := rfl
@[simp] theorem raiseError_work (e : Status) (s : State) : (raiseError e s).work = s.work := rfl
@[simp] theorem raiseError_status (e : Status) (s : State) : (raiseError e s).status = e := rfl
@[simp] theorem raiseError_results (e : Status) (s : State) : (raiseError e s).results = s.results := rfl
@[simp] theorem raiseError_readable (e : Status) (s : State) : (raiseError e s).readable = .statusOnly := rfl
@[simp] theorem raiseError_inputs (e : Status) (s : State) : (raiseError e s).inputs = s.inputs := rfl
@[simp] theorem raiseError_cap (e : Status) (s : State) : (raiseError e s).cap = s.cap := rfl
@[simp] theorem raiseError_fresh (e : Status) (s : State) : (raiseError e s).fresh = s.fresh := rfl

@[simp] theorem complete_phase (r : Results) (p : Readable) (s : State) : (complete r p s).phase = .done := rfl
@[simp] theorem complete_work (r : Results) (p : Readable) (s : State) : (complete r p s).work = s.work := rfl
@[simp] theorem complete_status (r : Results) (p : Readable) (s : State) : (complete r p s).status = .ok := rfl
@[simp] theorem complete_results (r : Results) (p : Readable) (s : State) : (complete r p s).results = r := rfl
@[simp] theorem complete_readable (r : Results) (p : Readable) (s : State) : (complete r p s).readable = p := rfl
@[simp] theorem complete_inputs (r : Results) (p : Readable) (s : State) : (complete r p s).inputs = s.inputs := rfl
@[simp] theorem complete_cap (r : Results) (p : Readable) (s : State) : (complete r p s).cap = s.cap := rfl
@[simp] theorem complete_fresh (r : Results) (p : Readable) (s : State) : (complete r p s).fresh = s.fresh := rfl

@[simp] theorem release_phase (s : State) : (release s).phase = .idle := rfl
@[simp] theorem release_work (s : State) : (release s).work = Config.freeWork s.fresh := rfl
@[simp] theorem release_status (s : State) : (release s).status = s.status := rfl
@[simp] theorem release_results (s : State) : (release s).results = s.results := rfl
@[simp] theorem release_readable (s : State) : (release s).readable = s.readable := rfl
@[simp] theorem release_inputs (s : State) : (release s).inputs = s.inputs := rfl
@[simp] theorem release_cap (s : State) : (release s).cap = s.cap := rfl
@[simp] theorem release_fresh (s : State) : (release s).fresh = s.fresh + 1 := rfl

@[simp] theorem settle_phase (s : State) : (settle s).phase = if s.phase = .done then .idle else s.phase := by
  unfold settle; split <;> simp_all
@[simp] theorem settle_work (s : State) :
    (settle s).work = if s.phase = .done then Config.freeWork s.fresh else s.work := by
  unfold settle; split <;> rfl
@[simp] theorem settle_status (s : State) : (settle s).status = s.status := by
  unfold settle; split <;> rfl
@[simp] theorem settle_results (s : State) : (settle s).results = s.results := by
  unfold settle; split <;> rfl
@[simp] theorem settle_readable (s : State) : (settle s).readable = s.readable := by
  unfold settle; split <;> rfl
@[simp] theorem settle_inputs (s : State) : (settle s).inputs = s.inputs := by
  unfold settle; split <;> rfl
@[simp] theorem settle_cap (s : State) : (settle s).cap = s.cap := by
  unfold settle; split <;> rfl
@[simp] theorem settle_fresh (s : State) :
    (settle s).fresh = if s.phase = .done then s.fresh + 1 else s.fresh := by
  unfold settle; split <;> rfl

@[simp] theorem resetBlock_phase (s : State) : (resetBlock s).phase = .idle := rfl
@[simp] theorem resetBlock_work (s : State) : (resetBlock s).work = Config.freeWork s.fresh := rfl
@[simp] theorem resetBlock_status (s : State) : (resetBlock s).status = Config.freeStatus s.fresh := rfl
@[simp] theorem resetBlock_results (s : State) : (resetBlock s).results = Config.freeResults s.fresh := rfl
@[simp] theorem resetBlock_readable (s : State) : (resetBlock s).readable = .afterReset := rfl
@[simp] theorem resetBlock_inputs (s : State) : (resetBlock s).inputs = s.inputs := rfl
@[simp] theorem resetBlock_cap (s : State) : (resetBlock s).cap = s.cap := rfl
@[simp] theorem resetBlock_fresh (s : State) : (resetBlock s).fresh = s.fresh + 1 := rfl

@[simp] theorem startState_phase (i : Instr) (s : State) :
    (startState i s).phase = firstPhase (sample (encode i) s.work).unit := rfl
@[simp] theorem startState_work (i : Instr) (s : State) : (startState i s).work = sample (encode i) s.work := rfl
@[simp] theorem startState_status (i : Instr) (s : State) : (startState i s).status = s.status := rfl
@[simp] theorem startState_results (i : Instr) (s : State) :
    (startState i s).results = Config.freeResults s.fresh := rfl
@[simp] theorem startState_readable (i : Instr) (s : State) :
    (startState i s).readable = .statusOnly := rfl
@[simp] theorem startState_inputs (i : Instr) (s : State) : (startState i s).inputs = s.inputs := rfl
@[simp] theorem startState_cap (i : Instr) (s : State) : (startState i s).cap = s.cap := rfl
@[simp] theorem startState_fresh (i : Instr) (s : State) : (startState i s).fresh = s.fresh + 1 := rfl

@[simp] theorem checkPhase_phase (s : State) :
    (checkPhase s).phase = if overflowCondition s.work.w s.work.n s.work.d = true then .done else .setup := by
  unfold checkPhase; split <;> rfl
@[simp] theorem checkPhase_work (s : State) : (checkPhase s).work = s.work := by
  unfold checkPhase; split <;> rfl
@[simp] theorem checkPhase_status (s : State) :
    (checkPhase s).status = if overflowCondition s.work.w s.work.n s.work.d = true then .overflow else s.status := by
  unfold checkPhase; split <;> rfl
@[simp] theorem checkPhase_results (s : State) :
    (checkPhase s).results = s.results := by
  unfold checkPhase; split <;> rfl
@[simp] theorem checkPhase_readable (s : State) :
    (checkPhase s).readable = if overflowCondition s.work.w s.work.n s.work.d = true then .statusOnly else s.readable := by
  unfold checkPhase; split <;> rfl
@[simp] theorem checkPhase_inputs (s : State) :
    (checkPhase s).inputs = s.inputs := by
  unfold checkPhase; split <;> rfl
@[simp] theorem checkPhase_cap (s : State) : (checkPhase s).cap = s.cap := by
  unfold checkPhase; split <;> rfl
@[simp] theorem checkPhase_fresh (s : State) :
    (checkPhase s).fresh = s.fresh := by
  unfold checkPhase; split <;> rfl

@[simp] theorem setupPhase_phase (s : State) :
    (setupPhase s).phase = if 0 < s.work.w then .iterate else .extract := rfl
@[simp] theorem setupPhase_work (s : State) :
    (setupPhase s).work = { s.work with da := alignedDivisor s.work.w s.work.d, ca := alignedComplement s.work.w s.work.d, acc := s.work.n, iter := 0, opc := 0 } := rfl
@[simp] theorem setupPhase_status (s : State) : (setupPhase s).status = s.status := rfl
@[simp] theorem setupPhase_results (s : State) : (setupPhase s).results = s.results := rfl
@[simp] theorem setupPhase_readable (s : State) : (setupPhase s).readable = s.readable := rfl
@[simp] theorem setupPhase_inputs (s : State) : (setupPhase s).inputs = s.inputs := rfl
@[simp] theorem setupPhase_cap (s : State) : (setupPhase s).cap = s.cap := rfl
@[simp] theorem setupPhase_fresh (s : State) : (setupPhase s).fresh = s.fresh := rfl

@[simp] theorem iteratePhase_phase (s : State) :
    (iteratePhase s).phase = if (iteration s.work).iter < (iteration s.work).w then .iterate else phaseAfterLoop (iteration s.work).alg := rfl
@[simp] theorem iteratePhase_work (s : State) : (iteratePhase s).work = iteration s.work := rfl
@[simp] theorem iteratePhase_status (s : State) : (iteratePhase s).status = s.status := rfl
@[simp] theorem iteratePhase_results (s : State) : (iteratePhase s).results = s.results := rfl
@[simp] theorem iteratePhase_readable (s : State) : (iteratePhase s).readable = s.readable := rfl
@[simp] theorem iteratePhase_inputs (s : State) : (iteratePhase s).inputs = s.inputs := rfl
@[simp] theorem iteratePhase_cap (s : State) : (iteratePhase s).cap = s.cap := rfl
@[simp] theorem iteratePhase_fresh (s : State) : (iteratePhase s).fresh = s.fresh := rfl

@[simp] theorem correctPhase_phase (s : State) : (correctPhase s).phase = .extract := rfl
@[simp] theorem correctPhase_work (s : State) : (correctPhase s).work = finalCorrection s.work := rfl
@[simp] theorem correctPhase_status (s : State) : (correctPhase s).status = s.status := rfl
@[simp] theorem correctPhase_results (s : State) : (correctPhase s).results = s.results := rfl
@[simp] theorem correctPhase_readable (s : State) : (correctPhase s).readable = s.readable := rfl
@[simp] theorem correctPhase_inputs (s : State) : (correctPhase s).inputs = s.inputs := rfl
@[simp] theorem correctPhase_cap (s : State) : (correctPhase s).cap = s.cap := rfl
@[simp] theorem correctPhase_fresh (s : State) : (correctPhase s).fresh = s.fresh := rfl

@[simp] theorem extractPhase_phase (s : State) : (extractPhase s).phase = .sign := rfl
@[simp] theorem extractPhase_work (s : State) :
    (extractPhase s).work = { s.work with
      acc := s.work.acc &&& mask (2 * s.work.w)
      qmag := (s.work.acc &&& mask (2 * s.work.w)) &&& mask s.work.w
      rem := ((s.work.acc &&& mask (2 * s.work.w)) >>> s.work.w) &&& mask s.work.w } := rfl
@[simp] theorem extractPhase_status (s : State) : (extractPhase s).status = s.status := rfl
@[simp] theorem extractPhase_results (s : State) : (extractPhase s).results = s.results := rfl
@[simp] theorem extractPhase_readable (s : State) : (extractPhase s).readable = s.readable := rfl
@[simp] theorem extractPhase_inputs (s : State) : (extractPhase s).inputs = s.inputs := rfl
@[simp] theorem extractPhase_cap (s : State) : (extractPhase s).cap = s.cap := rfl
@[simp] theorem extractPhase_fresh (s : State) : (extractPhase s).fresh = s.fresh := rfl

@[simp] theorem signPhase_phase (s : State) : (signPhase s).phase = .done := rfl
@[simp] theorem signPhase_work (s : State) : (signPhase s).work = s.work := rfl
@[simp] theorem signPhase_status (s : State) : (signPhase s).status = .ok := rfl
@[simp] theorem signPhase_results (s : State) :
    (signPhase s).results = { s.results with q := signedQuotient s.work.mode s.work.sn s.work.sd s.work.qmag, r := s.work.rem, opcOut := s.work.opc } := rfl
@[simp] theorem signPhase_readable (s : State) : (signPhase s).readable = .division := rfl
@[simp] theorem signPhase_inputs (s : State) : (signPhase s).inputs = s.inputs := rfl
@[simp] theorem signPhase_cap (s : State) : (signPhase s).cap = s.cap := rfl
@[simp] theorem signPhase_fresh (s : State) : (signPhase s).fresh = s.fresh := rfl

end Sys2Proof.Machine
end

