-- ==== Sys2Proof/Laws/Ops.lean ====
section
/-! SUPPORT. The shared operations: what each can do, said once. -/

namespace Sys2Proof.Machine

/-! ## Composition -/

@[simp] theorem andThen_next (s : State) (f : State → Out) : andThen (.next s) f = f s := rfl

@[simp] theorem andThen_fault (r : Fault) (f : State → Out) : andThen (.fault r) f = .fault r := rfl

@[simp] theorem andThen_refused (r : Refusal) (f : State → Out) : andThen (.refused r) f = .refused r := rfl

/-- A composition answers a next state exactly when both parts do. -/
theorem andThen_eq_next {o : Out} {f : State → Out} {t : State} :
    andThen o f = .next t ↔ ∃ s, o = .next s ∧ f s = .next t := by
  cases o <;> simp [andThen]

/-- A composition faults exactly when one of its parts does. -/
theorem andThen_eq_fault {o : Out} {f : State → Out} {r : Fault} :
    andThen o f = .fault r ↔ o = .fault r ∨ ∃ s, o = .next s ∧ f s = .fault r := by
  cases o <;> simp [andThen]

/-- A composition refuses exactly when one of its parts does. -/
theorem andThen_eq_refused {o : Out} {f : State → Out} {r : Refusal} :
    andThen o f = .refused r ↔ o = .refused r ∨ ∃ s, o = .next s ∧ f s = .refused r := by
  cases o <;> simp [andThen]

/-! ## String buffers -/

/-- A buffer's cells have rising addresses from their base on. -/
theorem Memory.wf_cellsFrom (buffer : GString) :
    ∀ base, Memory.wf (Memory.cellsFrom base buffer) = true := by
  induction buffer with
  | nil => intro base; rfl
  | cons g rest ih =>
    intro base
    cases rest with
    | nil => rfl
    | cons h tail =>
      have := ih (base + 1)
      simp only [Memory.cellsFrom, Memory.wf] at this ⊢
      simp [this]

/-- Every buffer's cells are in canonical form; so every operation on buffers keeps it, and reset has it. -/
theorem Memory.wf_cells (buffer : GString) : Memory.wf (Memory.cells buffer) = true :=
  Memory.wf_cellsFrom buffer 0

/-- Writing the next glyph lengthens the buffer by one; writing an earlier one keeps its length. -/
theorem memWrite_length (buffer : GString) (i : Nat) (g : Glyph) :
    (memWrite buffer i g).length = if i = buffer.length then buffer.length + 1 else buffer.length := by
  unfold memWrite
  split
  · next h => simp [Nat.ne_of_lt h]
  · split <;> simp_all

/-! ## The start of a call -/

/-- A block that is not in DONE is settled already. -/
theorem settle_eq_self {s : State} (h : s.phase ≠ .done) : settle s = s := if_neg h

/-- A block in DONE settles by the release of its call. -/
theorem settle_eq_release {s : State} (h : s.phase = .done) : settle s = release s := if_pos h

/-- A block with no call in progress settles in IDLE. -/
theorem settle_idle {s : State} (h : inCall s.phase = false) : (settle s).phase = .idle := by
  rw [settle_phase]
  cases hp : s.phase <;> simp_all [inCall]

/-- A call begins exactly with no call in progress and within capacity, in the start state of the settled block. -/
theorem beginCall_eq_next {i : Instr} {s t : State} :
    beginCall i s = .next t ↔
      inCall s.phase = false ∧ i.wellFormed s.cap = true ∧ startState i (settle s) = t := by
  unfold beginCall
  cases inCall s.phase <;> cases i.wellFormed s.cap <;> simp

/-- The start of a call never faults. -/
theorem beginCall_ne_fault {i : Instr} {s : State} {r : Fault} : beginCall i s ≠ .fault r := by
  unfold beginCall
  split
  · simp
  · split <;> simp

/-- A call in progress refuses every command. -/
theorem beginCall_busy {i : Instr} {s : State} (hp : inCall s.phase = true) :
    beginCall i s = .refused .commandWhileBusy := if_pos hp

/-- A command presented with no call in progress and within capacity begins its call. -/
theorem beginCall_ready {i : Instr} {s : State} (hp : inCall s.phase = false) (hw : i.wellFormed s.cap = true) :
    beginCall i s = .next (startState i (settle s)) := beginCall_eq_next.mpr ⟨hp, hw, rfl⟩

end Sys2Proof.Machine
end

