-- ==== Sys2Proof/Laws/Operands.lean ====
section
/-! SUPPORT. Glyphs, strings and operand preparation. -/

namespace Sys2Proof.Machine

@[simp] theorem glyphBit_glyphOfBit (b : Bool) : glyphBit (glyphOfBit b) = some b := by cases b <;> decide

@[simp] theorem validGlyph_glyphOfBit (b : Bool) : validGlyph (glyphOfBit b) = true := by cases b <;> decide

@[simp] theorem bitValue_glyphOfBit (b : Bool) : bitValue (glyphOfBit b) = b.toNat := by cases b <;> decide

/-- A valid glyph spells a bit. -/
theorem validGlyph_iff {g : Glyph} : validGlyph g = true ↔ ∃ b, glyphBit g = some b := by
  simp [validGlyph, Option.isSome_iff_exists]

@[simp] theorem validString_nil : validString [] = true := rfl

@[simp] theorem validString_cons (g : Glyph) (s : GString) :
    validString (g :: s) = (validGlyph g && validString s) := rfl

/-- A glyph's bit is at most 1. -/
theorem bitValue_le (g : Glyph) : bitValue g ≤ 1 := by
  unfold bitValue
  cases (glyphBit g).getD false <;> simp

/-- A string of `n` glyphs stands for a number below `2^n`. -/
theorem value_lt (s : GString) : value s < 2 ^ s.length := by
  induction s with
  | nil => simp [value]
  | cons g rest ih =>
    have h := Nat.mul_le_mul_right (2 ^ rest.length) (bitValue_le g)
    simp only [value, List.length_cons, Nat.pow_succ]
    omega

/-- The decoding loop is the sum of R34 on a valid string, whatever value it starts from. -/
theorem decodeLoop_valid (s : GString) (h : validString s = true) :
    ∀ v, decodeLoop s v = some (v * 2 ^ s.length + value s) := by
  induction s with
  | nil => intro v; simp [decodeLoop, value]
  | cons g rest ih =>
    intro v
    simp only [validString_cons, Bool.and_eq_true] at h
    obtain ⟨b, hb⟩ := validGlyph_iff.mp h.1
    cases b <;>
      simp only [decodeLoop, hb, ih h.2, value, bitValue, Option.getD_some, Bool.toNat_false,
        Bool.toNat_true, List.length_cons, Nat.pow_succ, Option.some.injEq] <;> ring

/-- The decoding loop fails on a string with an invalid glyph, wherever it stands. -/
theorem decodeLoop_invalid (s : GString) (h : validString s = false) : ∀ v, decodeLoop s v = none := by
  induction s with
  | nil => simp at h
  | cons g rest ih =>
    intro v
    cases hg : glyphBit g with
    | none => simp [decodeLoop, hg]
    | some b =>
      have hv : validString rest = false := by simpa [validGlyph, hg] using h
      cases b <;> simp [decodeLoop, hg, ih hv]

/-- `decode` of a valid string is its value. -/
theorem decodeString_valid {s : GString} (h : validString s = true) : decodeString s = some (value s) := by
  simp [decodeString, decodeLoop_valid s h]

/-- `decode` of a string with an invalid glyph fails. -/
theorem decodeString_invalid {s : GString} (h : validString s = false) : decodeString s = none :=
  decodeLoop_invalid s h 0

/-- An operand of valid glyphs, with its sign glyph where the mode has one, is read as its format says. -/
theorem operand_valid {m : Mode} {s : GString} (hs : lacksSignGlyph m s = false) (h : validString s = true) :
    operand m s = some { sign := signOf m s, mag := magOf m s, magBits := wordSize m s } := by
  cases m with
  | unsigned => simp [operand, operandUmag, decodeString_valid h, signOf, magOf, wordSize, magDigits]
  | signed =>
    cases s with
    | nil => simp [lacksSignGlyph] at hs
    | cons g rest =>
      simp only [validString_cons, Bool.and_eq_true] at h
      obtain ⟨b, hb⟩ := validGlyph_iff.mp h.1
      have hsign : (g == glyphOne) = b := by
        unfold glyphBit at hb
        split at hb
        · next hz => subst hz; cases hb; decide
        · split at hb
          · next h1 => subst h1; cases hb; decide
          · cases hb
      simp [operand, operandSmag, memRead, hb, decodeString_valid h.2, signOf, magOf, wordSize, magDigits, hsign]

/-- An operand with an invalid glyph has no reading. -/
theorem operand_invalid {m : Mode} {s : GString} (h : validString s = false) : operand m s = none := by
  cases m with
  | unsigned => simp [operand, operandUmag, decodeString_invalid h]
  | signed =>
    cases s with
    | nil => simp at h
    | cons g rest =>
      cases hg : glyphBit g with
      | none => simp [operand, operandSmag, memRead, hg]
      | some b =>
        have hv : validString rest = false := by simpa [validGlyph, hg] using h
        simp [operand, operandSmag, memRead, hg, decodeString_invalid hv]

/-- All that PREPARE can do where it answers a next state: raise `InvalidFormat`, or write the operand registers. -/
theorem preparePhase_cases {s t : State} (h : preparePhase s = .next t) :
    t = raiseError .invalidFormat s ∨
    ∃ a b, operand s.work.mode s.work.opa = some a ∧ operand s.work.mode s.work.opb = some b ∧
      s.cap.fitsWord b.magBits = true ∧ s.cap.fitsValue a.mag = true ∧ s.cap.fitsValue b.mag = true ∧
      a.mag < 2 ^ (2 * b.magBits) ∧
      t = { s with
        phase := .check
        work := { s.work with w := b.magBits, sn := a.sign, sd := b.sign, n := a.mag, d := b.mag } } := by
  unfold preparePhase at h
  dsimp only at h
  split at h
  · cases h
  · split at h
    · next a b ha hb =>
      split at h
      · cases h
      · next hc =>
        split at h
        · cases h
        · next hn =>
          cases h
          simp only [Bool.not_eq_true, Bool.not_eq_false', Bool.and_eq_true] at hc
          exact .inr ⟨a, b, ha, hb, hc.1.1, hc.1.2, hc.2, Nat.lt_of_not_le hn, rfl⟩
    · cases h
      exact .inl rfl

end Sys2Proof.Machine
end

