-- ==== Sys2Proof/Laws/PerInstr.lean ====
section
/-! SUPPORT. Statements about every command as syntax, one lemma per constructor. -/

namespace Sys2Proof.Laws.CommandWord

/-- The command word of a command is a row of the opcode map and none of the two reserved words (R47, R57). -/
def Statement (i : Instr) : Prop :=
  (encode i).cmd.toNat < 6

theorem divRU (a b : GString) : Statement (.divRU a b) := by simp [Statement, Sys2Proof.encode]

theorem divRS (a b : GString) : Statement (.divRS a b) := by simp [Statement, Sys2Proof.encode]

theorem divNRU (a b : GString) : Statement (.divNRU a b) := by simp [Statement, Sys2Proof.encode]

theorem divNRS (a b : GString) : Statement (.divNRS a b) := by simp [Statement, Sys2Proof.encode]

theorem decode (s : GString) : Statement (.decode s) := by simp [Statement, Sys2Proof.encode]

theorem encode (value width : Nat) : Statement (.encode value width) := by
  simp [Statement, Sys2Proof.encode]

end Sys2Proof.Laws.CommandWord
end

