-- ==== Sys2Proof/Laws/Phases.lean ====
section
/-! SUPPORT. The phases of the sequencer and the frame of a divide command: what they leave alone. -/

namespace Sys2Proof.Machine

/-- All that the codec phase can do where it answers a next state. -/
theorem codecPhase_cases {s t : State} (h : codecPhase s = .next t) :
    (s.work.dir = .decode ∧ decodeString s.work.opa = none ∧ t = raiseError .invalidFormat s) ∨
    (∃ v, s.work.dir = .decode ∧ decodeString s.work.opa = some v ∧ s.cap.fitsValue v = true ∧
      t = complete { s.results with value := v } .value s) ∨
    (s.work.dir = .encode ∧
      t = complete { s.results with str := encodeString s.work.val s.work.width } .string s) := by
  unfold codecPhase at h
  split at h
  · next hd =>
    unfold decodePhase at h
    split at h
    · next hn => cases h; exact .inl ⟨hd, hn, rfl⟩
    · next v hv =>
      split at h
      · next hf => cases h; exact .inr (.inl ⟨v, hd, hv, hf, rfl⟩)
      · cases h
  · next hd => cases h; exact .inr (.inr ⟨hd, rfl⟩)

/-- An iteration changes `ACC`, `OPC`, `ITER` and `PT` at most. -/
theorem iteration_frame (k : Work) :
    ∃ acc opc pt, iteration k = { k with acc := acc, opc := opc, pt := pt, iter := k.iter + 1 } := by
  cases h : k.alg with
  | restoring =>
    simp only [iteration, h, restoringIteration]
    split
    · exact ⟨_, _, k.pt, rfl⟩
    · exact ⟨_, _, k.pt, rfl⟩
  | nonRestoring => simp only [iteration, h, nonRestoringIteration]; exact ⟨_, _, _, rfl⟩

/-- What no iteration changes. -/
theorem iteration_keeps (k : Work) :
    (iteration k).w = k.w ∧ (iteration k).alg = k.alg ∧ (iteration k).mode = k.mode ∧
    (iteration k).n = k.n ∧ (iteration k).d = k.d ∧ (iteration k).sn = k.sn ∧ (iteration k).sd = k.sd ∧
    (iteration k).da = k.da ∧ (iteration k).ca = k.ca ∧ (iteration k).iter = k.iter + 1 := by
  obtain ⟨acc, opc, pt, h⟩ := iteration_frame k
  simp [h]

/-- The loop changes the phase and the working registers only. -/
theorem runLoop_frame (n : Nat) :
    ∀ s, ∃ p k, runLoop n s = { s with phase := p, work := k } := by
  induction n with
  | zero => intro s; exact ⟨s.phase, s.work, rfl⟩
  | succ n ih =>
    intro s
    obtain ⟨p, k, h⟩ := ih (iteratePhase s)
    exact ⟨p, k, h⟩

end Sys2Proof.Machine
end

