-- ==== Sys2Proof/Tests/Slice0.lean ====
section
/-! SUPPORT. Tests on fixed values, taken from the vectors of 95_test_vectors.md and the encodings of 30_encoding.md, and the
witnesses: for every statement with hypotheses a concrete state and operands that meet them together. -/

namespace Sys2Proof.Machine.Tests

/-- The string that spells the listed bits. -/
def spell (bits : List Nat) : GString := bits.map fun n => if n = 0 then glyphZero else glyphOne

/-- The result of a call that ended in a next state. -/
def resultOf (o : Out) : Option CallResult :=
  match o with
  | .next t => callResult t
  | .fault _ => none
  | .refused _ => none

/-- The name of a refusal. -/
def refusalOf (o : Out) : Option Refusal :=
  match o with
  | .next _ => none
  | .fault _ => none
  | .refused r => some r

/-- A block of the least capacities, just out of reset. -/
def small : State := { State.reset with cap := Capacity.least }

/-! ## Well-formedness: one ill-formed command for each check -/

theorem test_wellFormed_dividend_too_long :
    (Instr.divRU (List.replicate 65 glyphZero) []).wellFormed Capacity.least = false := by decide

theorem test_wellFormed_divisor_too_long :
    (Instr.divRS [] (List.replicate 65 glyphZero)).wellFormed Capacity.least = false := by decide

theorem test_wellFormed_dividend_too_long_nonRestoring :
    (Instr.divNRU (List.replicate 65 glyphZero) []).wellFormed Capacity.least = false := by decide

theorem test_wellFormed_divisor_too_long_nonRestoring :
    (Instr.divNRS [] (List.replicate 65 glyphZero)).wellFormed Capacity.least = false := by decide

theorem test_wellFormed_decode_too_long :
    (Instr.decode (List.replicate 65 glyphZero)).wellFormed Capacity.least = false := by decide

theorem test_wellFormed_value_too_wide : (Instr.encode (2 ^ 64) 64).wellFormed Capacity.least = false := by decide

theorem test_wellFormed_width_too_long : (Instr.encode 0 65).wellFormed Capacity.least = false := by decide

theorem test_wellFormed_at_the_bounds :
    (Instr.encode (2 ^ 64 - 1) 64).wellFormed Capacity.least = true ∧
    (Instr.decode (List.replicate 64 glyphOne)).wellFormed Capacity.least = true := by decide

/-! ## Decoding: the word of every row of the opcode table, bit 2 first -/

theorem test_decode_000_divRU : decode ⟨0b000#3, [glyphOne], [glyphZero], 7, 8⟩ = .instr (.divRU [glyphOne] [glyphZero]) := by
  decide

theorem test_decode_001_divRS : decode ⟨0b001#3, [glyphOne], [glyphZero], 7, 8⟩ = .instr (.divRS [glyphOne] [glyphZero]) := by
  decide

theorem test_decode_010_divNRU :
    decode ⟨0b010#3, [glyphOne], [glyphZero], 7, 8⟩ = .instr (.divNRU [glyphOne] [glyphZero]) := by decide

theorem test_decode_011_divNRS :
    decode ⟨0b011#3, [glyphOne], [glyphZero], 7, 8⟩ = .instr (.divNRS [glyphOne] [glyphZero]) := by decide

theorem test_decode_100_decode : decode ⟨0b100#3, [glyphOne], [glyphZero], 7, 8⟩ = .instr (.decode [glyphOne]) := by decide

theorem test_decode_101_encode : decode ⟨0b101#3, [glyphOne], [glyphZero], 7, 8⟩ = .instr (.encode 7 8) := by decide

theorem test_decode_reserved :
    decode ⟨0b110#3, [], [], 0, 0⟩ = .reserved 0b110#3 ∧ decode ⟨0b111#3, [], [], 0, 0⟩ = .reserved 0b111#3 := by decide

theorem test_table_words :
    decodeTableWord 8 0 = some (.divRU (spell [0]) (spell [0])) ∧
    decodeTableWord 8 3 = some (.divNRS (spell [0]) (spell [0])) ∧
    decodeTableWord 8 5 = some (.encode 0 0) ∧ decodeTableWord 8 6 = none ∧ decodeTableWord 8 8 = none := by decide

/-- The word of every row runs as the first event after reset: 0 / 0 overflows, `"0"` decodes to 0, 0 at width 0 is `""`. -/
theorem test_fetched_words_run :
    resultOf (step (State.reset.withFetchWord 8 0)) = some .overflow ∧
    resultOf (step (State.reset.withFetchWord 8 1)) = some .overflow ∧
    resultOf (step (State.reset.withFetchWord 8 2)) = some .overflow ∧
    resultOf (step (State.reset.withFetchWord 8 3)) = some .overflow ∧
    resultOf (step (State.reset.withFetchWord 8 4)) = some (.value 0) ∧
    resultOf (step (State.reset.withFetchWord 8 5)) = some (.string []) ∧
    refusalOf (step (State.reset.withFetchWord 8 6)) = some (.reservedCommand 0b110#3) := by decide

/-! ## Commands: the vectors of 95_test_vectors.md -/

/-- V2.1 (S1). -/
theorem test_divRU_13_by_3 :
    resultOf (exec (.divRU (spell [0, 0, 0, 0, 1, 1, 0, 1]) (spell [0, 0, 1, 1])) State.reset) =
      some (.division 4 1 7) := by decide

/-- V2.7: equality overflows. -/
theorem test_divRU_equality_overflows :
    resultOf (exec (.divRU (spell [0, 0, 0, 1, 0, 0, 0, 0]) (spell [0, 0, 0, 1])) State.reset) = some .overflow := by decide

/-- V4.2: the quotient is negated, the remainder is not. -/
theorem test_divRS_minus_13_by_3 :
    resultOf (exec (.divRS (spell [1, 0, 0, 0, 0, 1, 1, 0, 1]) (spell [0, 0, 0, 1, 1])) State.reset) =
      some (.division (-4) 1 7) := by decide

/-- V3.6: `InvalidFormat` wins over `Overflow`. -/
theorem test_divRS_invalidFormat_first :
    resultOf (exec (.divRS (0x32#8 :: spell [0, 0, 0, 0, 1, 1, 0] ++ [0x78#8]) (spell [0, 0, 0, 0, 0])) State.reset) =
      some .invalidFormat := by decide

/-- V2.11. -/
theorem test_divNRU_100_by_7 :
    resultOf (exec (.divNRU (spell [0, 1, 1, 0, 0, 1, 0, 0]) (spell [0, 1, 1, 1])) State.reset) =
      some (.division 14 2 4) := by decide

/-- V2.22: a dividend of `2^(2w)`. -/
theorem test_divNRU_dividend_too_large :
    refusalOf (exec (.divNRU (spell [1, 0, 0, 0, 0, 0, 0, 0, 0]) (spell [0, 0, 1, 1])) State.reset) =
      some .dividendTooLarge := by decide

/-- V4.3: signs 0, 1. -/
theorem test_divNRS_13_by_minus_3 :
    resultOf (exec (.divNRS (spell [0, 0, 0, 0, 0, 1, 1, 0, 1]) (spell [1, 0, 0, 1, 1])) State.reset) =
      some (.division (-4) 1 4) := by decide

/-- V4.14: no sign glyph. -/
theorem test_divNRS_sign_glyph_missing :
    refusalOf (exec (.divNRS [] (spell [0, 0, 0, 1, 1])) State.reset) = some .signGlyphMissing := by decide

/-- V1.3. -/
theorem test_decode_leading_zeros :
    resultOf (exec (.decode (spell [0, 0, 0, 0, 1, 1, 0, 1])) State.reset) = some (.value 13) := by decide

/-- S3: `"102"`. -/
theorem test_decode_invalidFormat :
    resultOf (exec (.decode (spell [1, 0] ++ [0x32#8])) State.reset) = some .invalidFormat := by decide

/-- V1.9. -/
theorem test_encode_13_width_8 :
    resultOf (exec (.encode 13 8) State.reset) = some (.string (spell [0, 0, 0, 0, 1, 1, 0, 1])) := by decide

/-- V1.13. -/
theorem test_encode_width_0 : resultOf (exec (.encode 0 0) State.reset) = some (.string []) := by decide

/-! ## Single iterations: the traces of S1 and V2.10 -/

/-- The loop of 13 / 3 at word size 4 with a given accumulator. -/
def loop13by3 (acc iter opc : Nat) : Work :=
  { Work.atReset with
    opa := spell [0, 0, 0, 0, 1, 1, 0, 1], opb := spell [0, 0, 1, 1]
    w := 4, n := 13, d := 3, da := 48, ca := 464, acc := acc, iter := iter, opc := opc }

theorem test_restoring_iteration_restores :
    (restoringIteration (loop13by3 13 0 0)).acc = 538 ∧ (restoringIteration (loop13by3 13 0 0)).opc = 2 := by decide

theorem test_restoring_iteration_keeps :
    (restoringIteration (loop13by3 538 1 2)).acc = 517 ∧ (restoringIteration (loop13by3 538 1 2)).opc = 3 := by decide

theorem test_nonRestoring_iteration_adds :
    (nonRestoringIteration (loop13by3 490 1 1)).acc = 517 ∧ (nonRestoringIteration (loop13by3 490 1 1)).pt = true := by decide

theorem test_final_correction :
    (finalCorrection (loop13by3 484 4 4)).acc = 532 ∧ (finalCorrection (loop13by3 484 4 4)).opc = 4 := by decide

/-- The addends of S1. -/
theorem test_addends : alignedDivisor 4 3 = 48 ∧ complementDivisor 4 3 = 29 ∧ alignedComplement 4 3 = 464 := by decide

/-- P2: with `W_MAX = 13` the port carries -4 as 11111111111100. -/
theorem test_port_minus_4 : portQ 13 (-4) = 0b11111111111100#14 := by decide

/-! ## Events of the host -/

/-- R28: `STATUS` can be read before the first call. -/
theorem test_read_before_first_call : ∃ x, readResult .status State.reset = .next (.status x) := ⟨_, rfl⟩

/-- R126: no result register can be read after an error. -/
theorem test_read_after_error :
    readResult .q { State.reset with readable := .statusOnly } = .fault (.unspecifiedRead .q) := rfl

/-- R24: a block in DONE is ready for the next command. -/
theorem test_command_in_done :
    resultOf (step { State.reset with phase := .done, inputs := [.call ⟨0b100#3, spell [1, 0], [], 0, 0⟩] }) =
      some (.value 2) := by decide

theorem test_command_while_busy :
    refusalOf (step { State.reset with phase := .check, inputs := [.call ⟨0b100#3, [], [], 0, 0⟩] }) =
      some .commandWhileBusy := by decide

/-! ## Witnesses -/

/-- The dividend and divisor of S1, unsigned. -/
abbrev a13 : GString := spell [0, 0, 0, 0, 1, 1, 0, 1]
abbrev b3 : GString := spell [0, 0, 1, 1]

/-- The same in signed-magnitude mode, -13 and +3. -/
abbrev sa13 : GString := spell [1, 0, 0, 0, 0, 1, 1, 0, 1]
abbrev sb3 : GString := spell [0, 0, 0, 1, 1]

/-- A call that has just begun PREPARE. -/
def preparing (m : Mode) (a b : GString) : State :=
  { State.reset with phase := .prepare, work := { Work.atReset with mode := m, opa := a, opb := b } }

/-- The restoring loop of 13 / 3 after one iteration. -/
def looping : State := { State.reset with phase := .iterate, work := loop13by3 538 1 2, readable := .statusOnly }

theorem witness_CommandFieldsSelectCommand :
    (0b011#3 : CmdWord).getLsbD 2 = false ∧ (0b101#3 : CmdWord).getLsbD 2 = true ∧ (0b101#3 : CmdWord).getLsbD 1 = false := by
  decide

theorem witness_DecodeThenEncodeGivesTuple : ∃ i, decode ⟨0b101#3, [], [], 3, 4⟩ = .instr i := ⟨_, rfl⟩

theorem witness_ReservedWordsStartNoCall :
    ((0b110#3 : CmdWord) = 0b110#3) ∧ ((0b111#3 : CmdWord) = 0b111#3) ∧
    (0b101#3 : CmdWord) ≠ 0b110#3 ∧ (0b101#3 : CmdWord) ≠ 0b111#3 := by decide

theorem witness_StepRunsPresentedCommand : decode ⟨0b000#3, a13, b3, 0, 0⟩ = .instr (.divRU a13 b3) := by decide

theorem witness_QuietStepMovesSequencer : State.reset.inputs = [] ∧ State.reset.phase = .idle := by decide

/-- A block that still stands in DONE after a decode. -/
def ended : State := { State.reset with phase := .done, readable := .value }

theorem witness_CommandWhileBusyRefused : inCall looping.phase = true := by decide

theorem witness_InputsBeyondTypesRefused :
    inCall small.phase = false ∧ (Instr.encode (2 ^ 64) 64).wellFormed small.cap = false ∧
    (Instr.decode (List.replicate 65 glyphZero)).wellFormed small.cap = false := by decide

theorem witness_StartSamplesInputs :
    inCall State.reset.phase = false ∧ inCall ended.phase = false ∧ ended.phase = .done ∧
    (Instr.divNRS sa13 sb3).wellFormed State.reset.cap = true ∧
    (Instr.encode 13 8).wellFormed small.cap = true := by decide

theorem witness_BatchGoesOnAfterAnyCall :
    (∃ i, decode ⟨0b000#3, a13, spell [0], 0, 0⟩ = .instr i) ∧ inCall State.reset.phase = false ∧
    (∃ t, step { State.reset with
      inputs := [.call ⟨0b000#3, spell [0], spell [0], 0, 0⟩, .call ⟨0b000#3, a13, b3, 0, 0⟩] } = .next t) ∧
    (∃ u, exec (.divRU a13 b3) State.reset = .next u) := ⟨⟨_, rfl⟩, rfl, ⟨_, rfl⟩, ⟨_, rfl⟩⟩

theorem witness_DecodeCommandMeaning :
    (inCall small.phase = false ∧ small.cap.fitsString (List.replicate 64 glyphOne).length = true ∧
      validString (List.replicate 64 glyphOne) = true ∧ small.cap.fitsValue (value (List.replicate 64 glyphOne)) = true) ∧
    (inCall small.phase = false ∧ small.cap.fitsString [0x32#8].length = true ∧ validString [0x32#8] = false) := by decide

/-- A block whose strings may be longer than its values. -/
def narrow : State := { State.reset with cap := { wMax := none, valBits := some 64, strMax := some 70 } }

theorem witness_DecodeEdgeCases :
    (inCall narrow.phase = false ∧ narrow.cap.fitsString (List.replicate 65 glyphOne).length = true ∧
      validString (List.replicate 65 glyphOne) = true ∧ narrow.cap.fitsValue (value (List.replicate 65 glyphOne)) = false) ∧
    (narrow.cap.valBits = some 64 ∧ (List.replicate 64 glyphOne).length ≤ 64) := by decide

theorem witness_EncodeCommandMeaning :
    inCall small.phase = false ∧ small.cap.fitsValue 255 = true ∧ small.cap.fitsString 8 = true ∧ 255 < 2 ^ 8 ∧ 0 < 2 ^ 0 := by decide

theorem witness_EncodeUnfittingValueCompletes :
    inCall small.phase = false ∧ small.cap.fitsValue 256 = true ∧ small.cap.fitsString 8 = true ∧ 2 ^ 8 ≤ 256 := by decide

theorem witness_codecRoundTrips :
    (inCall small.phase = false ∧ small.cap.fitsValue 15 = true ∧ small.cap.fitsString 4 = true ∧ 15 < 2 ^ 4) ∧
    (inCall small.phase = false ∧ small.cap.fitsString b3.length = true ∧ validString b3 = true ∧
      small.cap.fitsValue (value b3) = true) := by decide

theorem witness_BufferWriteSetsOneGlyph : 1 ≤ [glyphOne].length ∧ (0 : Nat) ≠ 1 := by decide

theorem witness_PrepareAssemblesOperands :
    ((preparing .signed sa13 sb3).work.mode = .signed ∧ WellSpelled .signed sa13 sb3 ∧
      WithinCapacity .signed sa13 sb3 (preparing .signed sa13 sb3) ∧ magOf .signed sa13 < 2 ^ (2 * wordSize .signed sb3)) ∧
    (lacksSignGlyph .signed [0x32#8] = false ∧ lacksSignGlyph .signed sb3 = false ∧ validString [0x32#8] = false) := by decide

/-- The shapes at their boundaries: an empty operand; word size 14 with `W_MAX = 13`; a dividend of exactly `2^(2w)`. -/
theorem witness_RefusedOperandShapes :
    (Presentable [] sb3 small ∧ lacksSignGlyph .signed [] = true) ∧
    (Presentable [] (spell (List.replicate 14 1)) small ∧ WellSpelled .unsigned [] (spell (List.replicate 14 1)) ∧
      ¬ WithinCapacity .unsigned [] (spell (List.replicate 14 1)) small) ∧
    (Presentable (spell [1, 0, 0, 0, 0, 0, 0, 0, 0]) b3 small ∧ WellSpelled .unsigned (spell [1, 0, 0, 0, 0, 0, 0, 0, 0]) b3 ∧
      WithinCapacity .unsigned (spell [1, 0, 0, 0, 0, 0, 0, 0, 0]) b3 small ∧
      2 ^ (2 * wordSize .unsigned b3) ≤ magOf .unsigned (spell [1, 0, 0, 0, 0, 0, 0, 0, 0])) := by decide

theorem witness_InvalidFormatBeforeOverflow :
    Presentable [0x32#8] (spell [0, 0]) small ∧ lacksSignGlyph .signed [0x32#8] = false ∧
    lacksSignGlyph .signed (spell [0, 0]) = false ∧ validString [0x32#8] = false := by decide

theorem witness_OverflowExactly :
    DivideReady .unsigned a13 b3 small ∧ CheckPasses .unsigned a13 b3 ∧
    DivideReady .unsigned (spell [0, 0, 0, 1, 0, 0, 0, 0]) (spell [0, 0, 0, 1]) small ∧
    ¬ CheckPasses .unsigned (spell [0, 0, 0, 1, 0, 0, 0, 0]) (spell [0, 0, 0, 1]) := by decide

theorem witness_OverflowMeansQuotientDoesNotFit : 240 < 2 ^ (2 * 4) ∧ 1 ≤ 15 ∧ overflowCondition 4 240 15 = true := by decide

theorem witness_ZeroDivisorOverflows :
    (DivideReady .unsigned [] [] small ∧ magOf .unsigned [] = 0) ∧ wordSize .unsigned [] = 0 ∧
    (Presentable b3 [] small ∧ WithinCapacity .unsigned b3 [] small ∧ WellSpelled .unsigned b3 [] ∧
      1 ≤ magOf .unsigned b3) ∧
    (DivideReady .unsigned (spell [0, 1]) (spell [1]) small ∧ CheckPasses .unsigned (spell [0, 1]) (spell [1])) := by decide

theorem witness_AddendValues : 1 ≤ 1 ∧ 1 ≤ 2 ^ 1 - 1 ∧ 15 ≤ 2 ^ 4 - 1 := by decide

/-- Signed with differing flags, signed with equal flags, unsigned. -/
theorem witness_SignRule :
    ({ Work.atReset with mode := .signed, sn := true } : Work).mode = .signed ∧
    ({ Work.atReset with mode := .signed, sn := true } : Work).sn ≠ ({ Work.atReset with mode := .signed, sn := true } : Work).sd ∧
    ({ Work.atReset with mode := .signed } : Work).sn = ({ Work.atReset with mode := .signed } : Work).sd ∧
    Work.atReset.mode = .unsigned := by decide

theorem witness_PhasesFollowTable :
    (∃ t, advance looping = .next t) ∧ looping.phase = .iterate ∧
    (∃ t, advance (preparing .unsigned [0x32#8] b3) = .next t ∧ t.phase = .done) ∧
    (∃ t, advance { looping with phase := .check } = .next t) ∧ (∃ t, advance { looping with phase := .setup } = .next t) ∧
    (∃ t, advance { looping with phase := .sign } = .next t) :=
  ⟨⟨_, rfl⟩, rfl, ⟨_, rfl, rfl⟩, ⟨_, rfl⟩, ⟨_, rfl⟩, ⟨_, rfl⟩⟩

theorem witness_PhaseFrame :
    (∃ t, advance { looping with phase := .codec } = .next t) ∧ looping.work.dir = .decode ∧
    (∃ t, advance { looping with phase := .codec, work := { Work.atReset with dir := .encode } } = .next t) ∧
    (∃ t, advance { looping with phase := .sign } = .next t) ∧
    (∃ t, advance looping = .next t ∧ t.phase ≠ .done) := ⟨⟨_, rfl⟩, rfl, ⟨_, rfl⟩, ⟨_, rfl⟩, ⟨_, rfl, by decide⟩⟩

theorem witness_RestoringIterationValue :
    26 = (loop13by3 538 1 2).acc % 2 ^ (2 * 4 + 1) ∧ 26 < 2 ^ (2 * 4) ∧ 26 / 2 ^ 4 < 3 ∧ 3 < 2 ^ 4 ∧
    48 = 3 * 2 ^ 4 ∧ 464 = 2 ^ (2 * 4 + 1) - 3 * 2 ^ 4 ∧ 3 ≤ 2 * 26 / 2 ^ 4 ∧
    13 = (loop13by3 13 0 0).acc % 2 ^ (2 * 4 + 1) ∧ 2 * 13 / 2 ^ 4 < 3 := by decide

theorem witness_loops :
    (loop13by3 13 0 0).n < 2 ^ (2 * (loop13by3 13 0 0).w) ∧ (loop13by3 13 0 0).n / 2 ^ (loop13by3 13 0 0).w < (loop13by3 13 0 0).d ∧
    (loop13by3 13 0 0).d < 2 ^ (loop13by3 13 0 0).w ∧ (loop13by3 13 0 0).da = (loop13by3 13 0 0).d * 2 ^ (loop13by3 13 0 0).w ∧
    (loop13by3 13 0 0).ca = 2 ^ (2 * (loop13by3 13 0 0).w + 1) - (loop13by3 13 0 0).d * 2 ^ (loop13by3 13 0 0).w ∧
    (loop13by3 13 0 0).acc = (loop13by3 13 0 0).n ∧ (loop13by3 13 0 0).opc = 0 ∧ (loop13by3 13 0 0).iter = 0 ∧ 4 ≤ 4 := by decide

theorem witness_RestoringIterationSteps :
    (2 * ((loop13by3 538 1 2).acc % 2 ^ 9) + 464).testBit 8 = false ∧
    (2 * ((loop13by3 13 0 0).acc % 2 ^ 9) + 464).testBit 8 = true := by decide

theorem witness_NonRestoringIterationSteps : (loop13by3 13 0 0).acc < 2 ^ (2 * (loop13by3 13 0 0).w) := by decide

theorem witness_CorrectionIsNotCounted :
    (loop13by3 484 4 4).acc.testBit 8 = true ∧ (loop13by3 517 4 4).acc.testBit 8 = false ∧
    0 < (loop13by3 474 3 3).w ∧ (loop13by3 474 3 3).da % 2 ^ 4 = 0 ∧ (loop13by3 474 3 3).ca % 2 ^ 4 = 0 ∧
    (nonRestoringIteration (loop13by3 474 3 3)).acc.testBit 8 = true := by decide

/-- The invariant holds in the loop: restoring, one iteration done. -/
theorem witness_MachineInv : MachineInv looping := by
  refine ⟨by decide, ⟨by decide, by decide⟩, ?_⟩
  show OperandsRead _ _ ∧ CheckPassed _ ∧ AddendsSet _ ∧ _ ∧ LoopState _
  unfold OperandsRead CheckPassed AddendsSet LoopState
  decide

theorem witness_AccumulatorStaysInWidth : MachineInv looping ∧ looping.phase = .iterate := ⟨witness_MachineInv, rfl⟩

theorem witness_StepKeepsInvariant : ∃ t, MachineInv looping ∧ step looping = .next t := ⟨_, witness_MachineInv, rfl⟩

/-- The hypotheses of the statements about divide commands, in both modes. -/
theorem witness_DivideReady :
    (DivideReady .unsigned a13 b3 small ∧ CheckPasses .unsigned a13 b3) ∧
    (DivideReady .signed sa13 sb3 small ∧ CheckPasses .signed sa13 sb3) := by decide

/-- The same at the least word size, on both sides of the pre-flight check. -/
theorem witness_DivideReady_least :
    (DivideReady .unsigned (spell [0, 1]) (spell [1]) small ∧ CheckPasses .unsigned (spell [0, 1]) (spell [1])) ∧
    (DivideReady .unsigned (spell [1, 0]) (spell [1]) small ∧ ¬ CheckPasses .unsigned (spell [1, 0]) (spell [1])) := by decide

/-- The same at the largest word size of the harness (V2.24), and with sign glyphs only (V4.13). -/
theorem witness_DivideReady_largest :
    (DivideReady .unsigned (spell (List.replicate 25 1)) (spell (List.replicate 13 1)) small ∧
      CheckPasses .unsigned (spell (List.replicate 25 1)) (spell (List.replicate 13 1))) ∧
    (DivideReady .signed (spell [1]) (spell [1]) small ∧ ¬ CheckPasses .signed (spell [1]) (spell [1])) := by decide

theorem witness_DividendLeadingZeros :
    (DivideReady .unsigned a13 b3 small ∧ small.cap.fitsString (a13.length + 1) = true) ∧
    (DivideReady .signed (glyphOne :: a13) sb3 small ∧ small.cap.fitsString (a13.length + 2) = true) := by decide

theorem witness_PortEncodingsAreFaithful :
    DivideReady .signed sa13 sb3 small ∧ CheckPasses .signed sa13 sb3 ∧ wordSize .signed sb3 ≤ 13 := by decide

theorem witness_ReadableAfterCall :
    (∃ t, exec (.divRU a13 b3) State.reset = .next t ∧ t.status = .ok) ∧
    (∃ t, exec (.divRU a13 (spell [0])) State.reset = .refused t) ∧
    (∃ t, exec (.divRU [] []) State.reset = .next t ∧ t.status ≠ .ok) ∧
    (∃ t, exec (.decode b3) State.reset = .next t ∧ t.status = .ok) ∧
    (∃ t, exec (.encode 13 8) State.reset = .next t ∧ t.status = .ok) :=
  ⟨⟨_, rfl, rfl⟩, ⟨_, rfl⟩, ⟨_, rfl, by decide⟩, ⟨_, rfl, rfl⟩, ⟨_, rfl, rfl⟩⟩

theorem witness_BegunCallHidesResults :
    (∃ t, beginCall (.divRU a13 b3) State.reset = .next t) ∧
    (canRead State.reset.readable .status = true ∧ State.reset.phase ≠ .done) ∧
    (canRead ended.readable .value = true ∧ ended.phase = .done) ∧
    canRead looping.readable .q = false := ⟨⟨_, rfl⟩, by decide, by decide, rfl⟩

theorem witness_EveryCallEnds : inCall State.reset.phase = false ∧ inCall ended.phase = false := by decide

theorem witness_CommandFrame : ∃ t, exec (.encode 13 8) State.reset = .next t := ⟨_, rfl⟩

theorem witness_CallIsPure :
    inCall State.reset.phase = false ∧ inCall ended.phase = false ∧ State.reset.cap = ended.cap ∧
    (∃ t, exec (.decode b3) State.reset = .next t) ∧ (∃ r, exec (.divRS [] []) State.reset = .refused r) :=
  ⟨rfl, rfl, rfl, ⟨_, rfl⟩, ⟨_, rfl⟩⟩

theorem witness_PhasesAgreeWithCall :
    (∃ t, beginCall (.divNRS sa13 sb3) State.reset = .next t) ∧ callBound (.divNRS sa13 sb3) ≤ 13 := ⟨⟨_, rfl⟩, by decide⟩

end Sys2Proof.Machine.Tests
end

/-! # Proofs: the start of a call and its two views (R5, R6, R7, R24) -/

namespace Sys2Proof.Machine

/-! ## A call is its start and the run of its unit -/

/-- The unit a command selects (R46). -/
def unitOf (i : Instr) : CmdUnit :=
  match i with
  | .divRU _ _ => .divisionEngine
  | .divRS _ _ => .divisionEngine
  | .divNRU _ _ => .divisionEngine
  | .divNRS _ _ => .divisionEngine
  | .decode _ => .binaryCodec
  | .encode _ _ => .binaryCodec

/-- What follows the start of a call, up to IDLE: the frame of R75, or CODEC. -/
def runUnit (u : CmdUnit) (s : State) : Out :=
  match u with
  | .divisionEngine => runDivide s
  | .binaryCodec => andThen (codecPhase s) fun t => .next (release t)

/-- Every command begins its call and then runs its unit. -/
theorem exec_eq_begin_then_run (i : Instr) (s : State) :
    exec i s = andThen (beginCall i s) (runUnit (unitOf i)) := by
  cases i <;> rfl

@[simp] theorem unitOf_divide (alg : Alg) (m : Mode) (a b : GString) :
    unitOf (.divide alg m a b) = .divisionEngine := by
  cases alg <;> cases m <;> rfl

/-- The start of a call latches the unit of its command from `CMD[2]` (R28). -/
theorem startState_unit (i : Instr) (s : State) : (startState i s).work.unit = unitOf i := by
  cases i <;> simp [sample, encode, CmdUnit.ofBit, unitOf]

/-- A refusal at the start of a call is what the command answers. -/
theorem exec_of_beginCall_refused {i : Instr} {s : State} {r : Refusal} (h : beginCall i s = .refused r) :
    exec i s = .refused r := by
  rw [exec_eq_begin_then_run, h, andThen_refused]

/-- A command whose call begins answers what the run of its unit answers from the start state. -/
theorem exec_of_ready {i : Instr} {s : State} (hp : inCall s.phase = false) (hw : i.wellFormed s.cap = true) :
    exec i s = runUnit (unitOf i) (startState i (settle s)) := by
  rw [exec_eq_begin_then_run, beginCall_ready hp hw, andThen_next]

/-- With no call in progress the check of the input types comes first (log 15). -/
theorem beginCall_beyondTypes {i : Instr} {s : State} (hp : inCall s.phase = false)
    (hw : i.wellFormed s.cap = false) : beginCall i s = .refused .beyondCapacity := by
  simp [beginCall, hp, hw]

/-- Settles O9: the refusal of `beginCall` is what the command answers. -/
theorem inputsBeyondTypesRefused : Obligations.InputsBeyondTypesRefused := by
  intro i s hp hw
  have h := beginCall_beyondTypes hp hw
  exact ⟨exec_of_beginCall_refused h, h⟩

/-! ## The sequencer reaches an answer and stays with it -/

/-- Any number of moves from `k` on leads from `s` to the answer `o`. -/
def AnswersWithin (k : Nat) (s : State) (o : Out) : Prop := ∀ n, k ≤ n → runPhases n s = o

theorem AnswersWithin.mono {j k : Nat} {s : State} {o : Out} (h : AnswersWithin j s o) (hjk : j ≤ k) :
    AnswersWithin k s o := fun n hn => h n (hjk.trans hn)

/-- The idle block with nothing presented stays as it is (log 18). -/
theorem answersWithin_idle {s : State} (hp : s.phase = .idle) : AnswersWithin 0 s (.next s) := by
  intro n _
  induction n with
  | zero => rfl
  | succ n ih => simp [runPhases, advance, hp, ih]

/-- One move and then what follows from each state it can lead to; a refusal ends the run. -/
theorem answersWithin_advance {k : Nat} {s : State} {f : State → Out}
    (h : ∀ t, advance s = .next t → AnswersWithin k t (f t)) :
    AnswersWithin (k + 1) s (andThen (advance s) f) := by
  intro n hn
  obtain ⟨n, rfl⟩ := Nat.exists_eq_add_of_le' hn
  simp only [runPhases]
  cases ha : advance s with
  | next t => exact h t ha _ (Nat.le_add_left k n)
  | fault r => rfl
  | refused r => rfl

/-- One move that answers a next state. -/
theorem answersWithin_move {k : Nat} {s t : State} {o : Out} (ha : advance s = .next t)
    (h : AnswersWithin k t o) : AnswersWithin (k + 1) s o := by
  have hmove := answersWithin_advance (s := s) (k := k) (f := fun _ => o) fun u hu => by
    cases ha.symm.trans hu
    exact h
  rwa [ha] at hmove

/-! ## From the last phase back to the first -/

theorem answersWithin_done {s : State} (hp : s.phase = .done) : AnswersWithin 1 s (.next (release s)) :=
  answersWithin_move (by simp [advance, hp]) (answersWithin_idle (release_phase s))

theorem answersWithin_extract {s : State} (hp : s.phase = .extract) :
    AnswersWithin 3 s (.next (release (signPhase (extractPhase s)))) :=
  answersWithin_move (by simp [advance, hp]) <|
    answersWithin_move (s := extractPhase s) rfl (answersWithin_done (signPhase_phase _))

/-- `k` iterations are still to come; after the last the sequencer stands at CORRECT or EXTRACT (R16, R24). -/
def IterationsLeft : Nat → State → Prop
  | 0, s => s.phase = .correct ∨ s.phase = .extract
  | k + 1, s => s.phase = .iterate ∧ s.work.iter + (k + 1) = s.work.w

/-- SETUP leaves `W` iterations to come. -/
theorem iterationsLeft_setup (s : State) : IterationsLeft s.work.w (setupPhase s) := by
  cases hw : s.work.w with
  | zero => exact .inr (by simp [hw])
  | succ k => exact ⟨by simp [hw], by simp [hw]⟩

/-- ITERATE does one of the iterations to come. -/
theorem IterationsLeft.iterate {k : Nat} {s : State} (h : IterationsLeft (k + 1) s) :
    IterationsLeft k (iteratePhase s) := by
  obtain ⟨-, hk⟩ := h
  obtain ⟨hw, -, -, -, -, -, -, -, -, hiter⟩ := iteration_keeps s.work
  cases k with
  | zero =>
    have hlast : ¬ (iteration s.work).iter < (iteration s.work).w := by omega
    show (iteratePhase s).phase = .correct ∨ (iteratePhase s).phase = .extract
    rw [iteratePhase_phase, if_neg hlast]
    cases (iteration s.work).alg with
    | restoring => exact .inr rfl
    | nonRestoring => exact .inl rfl
  | succ k =>
    have hmore : (iteration s.work).iter < (iteration s.work).w := by omega
    refine ⟨if_pos hmore, ?_⟩
    rw [iteratePhase_work]
    omega

/-- The loop, and from its end the correction where it is selected, extraction and sign rule. -/
theorem answersWithin_loop (k : Nat) : ∀ s, IterationsLeft k s →
    AnswersWithin (k + 4) s (.next (release (signPhase (extractPhase (correctIfSelected (runLoop k s)))))) := by
  induction k with
  | zero =>
    intro s h
    obtain hp | hp := h
    · simpa [runLoop, correctIfSelected, hp] using
        answersWithin_move (by simp [advance, hp]) (answersWithin_extract (correctPhase_phase s))
    · simpa [runLoop, correctIfSelected, hp] using (answersWithin_extract hp).mono (Nat.le_succ 3)
  | succ k ih =>
    intro s h
    rw [Nat.add_right_comm]
    exact answersWithin_move (by simp [advance, h.1]) (ih _ h.iterate)

theorem answersWithin_setup {s : State} (hp : s.phase = .setup) :
    AnswersWithin (s.work.w + 5) s (.next (release (runFromSetup s))) :=
  answersWithin_move (by simp [advance, hp]) (answersWithin_loop _ _ (iterationsLeft_setup s))

theorem answersWithin_check {s : State} (hp : s.phase = .check) :
    AnswersWithin (s.work.w + 6) s (.next (release (runFromCheck s))) := by
  refine answersWithin_move (t := checkPhase s) (by simp [advance, hp]) ?_
  unfold runFromCheck
  split
  · next hdone => exact (answersWithin_done hdone).mono (by omega)
  · next hdone =>
    have hsetup : (checkPhase s).phase = .setup := by simp_all
    simpa using answersWithin_setup hsetup

/-- An operand has at most as many magnitude glyphs as its string has glyphs (R48, R49). -/
theorem operand_magBits_le {m : Mode} {s : GString} {o : Operand} (h : operand m s = some o) :
    o.magBits ≤ s.length := by
  cases m with
  | unsigned =>
    simp only [operand, operandUmag] at h
    split at h <;> cases h
    exact le_rfl
  | signed =>
    simp only [operand, operandSmag] at h
    split at h
    · cases h
    · split at h <;> cases h
      exact Nat.sub_le _ _

theorem answersWithin_prepare {s : State} (hp : s.phase = .prepare) :
    AnswersWithin (s.work.opb.length + 7) s (runDivide s) := by
  have hadvance : advance s = preparePhase s := by simp [advance, hp]
  unfold runDivide
  rw [← hadvance]
  refine answersWithin_advance fun t ht => ?_
  obtain rfl | ⟨a, b, -, hb, -, -, -, -, rfl⟩ := preparePhase_cases (hadvance.symm.trans ht)
  · exact (answersWithin_done rfl).mono (by omega)
  · exact (answersWithin_check rfl).mono (Nat.add_le_add_right (operand_magBits_le hb) 6)

theorem answersWithin_codec {s : State} (hp : s.phase = .codec) :
    AnswersWithin 2 s (andThen (codecPhase s) fun t => .next (release t)) := by
  have hadvance : advance s = codecPhase s := by simp [advance, hp]
  rw [← hadvance]
  refine answersWithin_advance fun t ht => answersWithin_done ?_
  obtain ⟨-, -, rfl⟩ | ⟨_, -, -, -, rfl⟩ | ⟨-, rfl⟩ := codecPhase_cases (hadvance.symm.trans ht) <;> rfl

/-- A call that stands at its first phase answers what the run of its unit answers. -/
theorem answersWithin_runUnit {u : CmdUnit} {s : State} (hp : s.phase = firstPhase u) :
    AnswersWithin (s.work.opb.length + 8) s (runUnit u s) := by
  cases u with
  | divisionEngine => exact (answersWithin_prepare hp).mono (Nat.le_succ _)
  | binaryCodec => exact (answersWithin_codec hp).mono (by omega)

/-- Settles O58: from the end of the call back to its start, each phase of the sequencer answers what the rest of the frame
answers; the loop by induction on the iterations still to come. -/
theorem phasesAgreeWithCall : Obligations.PhasesAgreeWithCall := by
  intro i s t n ht hn
  obtain ⟨hp, hw, rfl⟩ := beginCall_eq_next.mp ht
  rw [exec_of_ready hp hw]
  exact answersWithin_runUnit (startState_unit i _ ▸ startState_phase i _) n hn

/-! ## PREPARE by the shape of the operands (R76) -/

/-- An operand without its sign glyph comes before every other check (R49). -/
theorem preparePhase_lacksSignGlyph {s : State}
    (h : lacksSignGlyph s.work.mode s.work.opa = true ∨ lacksSignGlyph s.work.mode s.work.opb = true) :
    preparePhase s = .refused .signGlyphMissing := by
  simp [preparePhase, h]

/-- An invalid glyph in either operand raises `InvalidFormat`. -/
theorem preparePhase_invalid {s : State} (ha : lacksSignGlyph s.work.mode s.work.opa = false)
    (hb : lacksSignGlyph s.work.mode s.work.opb = false)
    (h : validString s.work.opa = false ∨ validString s.work.opb = false) :
    preparePhase s = .next (raiseError .invalidFormat s) := by
  simp only [preparePhase, ha, hb, Bool.or_self, Bool.false_eq_true, if_false]
  obtain h | h := h
  · simp [operand_invalid h]
  · cases operand s.work.mode s.work.opa <;> simp [operand_invalid h]

/-- The state to which PREPARE leads where both operands can be read. -/
def preparedState (s : State) : State :=
  { s with
    phase := .check
    work := { s.work with
      w := wordSize s.work.mode s.work.opb
      sn := signOf s.work.mode s.work.opa
      sd := signOf s.work.mode s.work.opb
      n := magOf s.work.mode s.work.opa
      d := magOf s.work.mode s.work.opb } }

/-- Two well-spelled operands meet the capacities first and then the bound of the dividend (log 15, R51). -/
theorem preparePhase_wellSpelled {s : State} (h : WellSpelled s.work.mode s.work.opa s.work.opb) :
    preparePhase s =
      if ¬ WithinCapacity s.work.mode s.work.opa s.work.opb s then .refused .beyondCapacity
      else if 2 ^ (2 * wordSize s.work.mode s.work.opb) ≤ magOf s.work.mode s.work.opa then .refused .dividendTooLarge
      else .next (preparedState s) := by
  obtain ⟨ha, hb, hva, hvb⟩ := h
  simp only [preparePhase, ha, hb, operand_valid ha hva, operand_valid hb hvb, preparedState, WithinCapacity,
    Bool.or_self, Bool.false_eq_true, if_false, Bool.not_eq_true', ← Bool.not_eq_true, Bool.and_eq_true, and_assoc]

/-! ## The end of a divide command -/

theorem runDivide_of_refused {s : State} {r : Refusal} (h : preparePhase s = .refused r) :
    runDivide s = .refused r := by
  simp [runDivide, h]

theorem runDivide_of_invalid {s : State} (h : preparePhase s = .next (raiseError .invalidFormat s)) :
    runDivide s = .next (release (raiseError .invalidFormat s)) := by
  simp [runDivide, h]

theorem runDivide_of_prepared {s : State} (h : preparePhase s = .next (preparedState s)) :
    runDivide s = .next (release (runFromCheck (preparedState s))) := by
  simp [runDivide, h, preparedState]

/-- From CHECK on a divide command ends in `Overflow`, or in a division to be read (R75). -/
theorem runFromCheck_cases (s : State) :
    ((runFromCheck s).readable = .statusOnly ∧ (runFromCheck s).status = .overflow) ∨
    (runFromCheck s).readable = .division := by
  unfold runFromCheck
  split
  · next hdone => exact .inl (by simp_all)
  · exact .inr rfl

/-- `InvalidFormat` is the result of a call that raised it. -/
@[simp] theorem callResult_release_invalidFormat (s : State) :
    callResult (release (raiseError .invalidFormat s)) = some .invalidFormat := rfl

/-- The result of an idle block whose last call was a division that ended `Ok` (R53). -/
theorem callResult_division {s : State} (hp : s.phase = .idle) (hr : s.readable = .division) :
    callResult s = some (.division s.results.q s.results.r s.results.opcOut) := by
  simp [callResult, hp, hr]

/-- The result of a divide command that reached CHECK: `Overflow`, or quotient, remainder and operation count. -/
theorem callResult_release_runFromCheck (s : State) :
    (∃ q r n, callResult (release (runFromCheck s)) = some (.division q r n)) ∨
    callResult (release (runFromCheck s)) = some .overflow := by
  obtain ⟨hread, hstatus⟩ | hread := runFromCheck_cases s
  · exact .inr (by simp [callResult, hread, hstatus])
  · exact .inl ⟨_, _, _, callResult_division (release_phase _) hread⟩

/-- A result of the shape of a divide command: quotient, remainder and count, or one of the two errors (R53). -/
def DivideResult (t : State) : Prop :=
  (∃ q r n, callResult t = some (.division q r n)) ∨ callResult t = some .overflow ∨
    callResult t = some .invalidFormat

/-- All that the frame of a divide command can answer: a result, or a refusal of PREPARE under its condition (R75, R76). -/
theorem runDivide_cases (s : State) :
    (∃ t, runDivide s = .next (release t) ∧ DivideResult (release t)) ∨
    (runDivide s = .refused .signGlyphMissing ∧
      (lacksSignGlyph s.work.mode s.work.opa = true ∨ lacksSignGlyph s.work.mode s.work.opb = true)) ∨
    (runDivide s = .refused .dividendTooLarge ∧
      2 ^ (2 * wordSize s.work.mode s.work.opb) ≤ magOf s.work.mode s.work.opa) ∨
    (runDivide s = .refused .beyondCapacity ∧ ¬ WithinCapacity s.work.mode s.work.opa s.work.opb s) := by
  by_cases hlacks : lacksSignGlyph s.work.mode s.work.opa = true ∨ lacksSignGlyph s.work.mode s.work.opb = true
  · exact .inr (.inl ⟨runDivide_of_refused (preparePhase_lacksSignGlyph hlacks), hlacks⟩)
  obtain ⟨ha, hb⟩ : lacksSignGlyph s.work.mode s.work.opa = false ∧ lacksSignGlyph s.work.mode s.work.opb = false := by
    simpa using hlacks
  by_cases hinvalid : validString s.work.opa = false ∨ validString s.work.opb = false
  · exact .inl ⟨_, runDivide_of_invalid (preparePhase_invalid ha hb hinvalid),
      .inr (.inr (callResult_release_invalidFormat s))⟩
  obtain ⟨hva, hvb⟩ : validString s.work.opa = true ∧ validString s.work.opb = true := by simpa using hinvalid
  have hprepare := preparePhase_wellSpelled ⟨ha, hb, hva, hvb⟩
  split at hprepare
  · next hcap => exact .inr (.inr (.inr ⟨runDivide_of_refused hprepare, hcap⟩))
  · split at hprepare
    · next hlarge => exact .inr (.inr (.inl ⟨runDivide_of_refused hprepare, hlarge⟩))
    · refine .inl ⟨_, runDivide_of_prepared hprepare, ?_⟩
      exact (callResult_release_runFromCheck _).imp_right .inl

/-! ## What a codec command answers -/

/-- `DECODE` of valid glyphs answers their value where it fits, and is refused where it does not (R66, R67). -/
theorem decodePhase_valid {s : State} (h : validString s.work.opa = true) :
    decodePhase s =
      if s.cap.fitsValue (value s.work.opa) = true then
        .next (complete { s.results with value := value s.work.opa } .value s)
      else .refused .beyondCapacity := by
  simp [decodePhase, decodeString_valid h]

/-- `DECODE` of an invalid glyph raises `InvalidFormat` (R66). -/
theorem decodePhase_invalid {s : State} (h : validString s.work.opa = false) :
    decodePhase s = .next (raiseError .invalidFormat s) := by
  simp [decodePhase, decodeString_invalid h]

/-- `DECODE` runs CODEC in the direction decode (R24, R46). -/
theorem runUnit_decode (g : GString) (s : State) :
    runUnit (unitOf (.decode g)) (startState (.decode g) s) =
      andThen (decodePhase (startState (.decode g) s)) fun t => .next (release t) := by
  simp [runUnit, unitOf, codecPhase, sample, encode, Dir.ofBit]

/-- `ENCODE` runs CODEC in the direction encode (R24, R46). -/
theorem runUnit_encode (v n : Nat) (s : State) :
    runUnit (unitOf (.encode v n)) (startState (.encode v n) s) =
      andThen (encodePhase (startState (.encode v n) s)) fun t => .next (release t) := by
  simp [runUnit, unitOf, codecPhase, sample, encode, Dir.ofBit]

/-! ## Every call ends -/

/-- A command ends idle in a state of which `P` holds, or in one of the three named refusals under its condition (R7). -/
def EndsOrRefused (i : Instr) (s : State) (P : State → Prop) : Prop :=
  EndsIdle (exec i s) P ∨
  (exec i s = .refused .signGlyphMissing ∧
    ∃ alg m a b, i = Instr.divide alg m a b ∧ (lacksSignGlyph m a = true ∨ lacksSignGlyph m b = true)) ∨
  (exec i s = .refused .dividendTooLarge ∧
    ∃ alg m a b, i = Instr.divide alg m a b ∧ 2 ^ (2 * wordSize m b) ≤ magOf m a) ∨
  (exec i s = .refused .beyondCapacity ∧
    (i.wellFormed s.cap = false ∨
      (∃ alg m a b, i = Instr.divide alg m a b ∧ ¬ WithinCapacity m a b s) ∨
      ∃ g, i = .decode g ∧ s.cap.fitsValue (value g) = false))

/-- Inputs beyond their types are one of the named refusals. -/
theorem endsOrRefused_of_beyondTypes {i : Instr} {s : State} {P : State → Prop} (hp : inCall s.phase = false)
    (hw : i.wellFormed s.cap = false) : EndsOrRefused i s P :=
  .inr (.inr (.inr ⟨exec_of_beginCall_refused (beginCall_beyondTypes hp hw), .inl hw⟩))

/-- The start of a divide command latches its mode and its operands (R11, R12). -/
theorem startState_divide (alg : Alg) (m : Mode) (a b : GString) (s : State) :
    (startState (.divide alg m a b) s).work.mode = m ∧ (startState (.divide alg m a b) s).work.opa = a ∧
    (startState (.divide alg m a b) s).work.opb = b := by
  cases alg <;> cases m <;> simp [Instr.divide, sample, encode, Mode.ofBit]

theorem divide_endsOrRefused (alg : Alg) (m : Mode) (a b : GString) {s : State} (hp : inCall s.phase = false) :
    EndsOrRefused (.divide alg m a b) s DivideResult := by
  cases hw : (Instr.divide alg m a b).wellFormed s.cap with
  | false => exact endsOrRefused_of_beyondTypes hp hw
  | true =>
    have hexec : exec (.divide alg m a b) s = runDivide (startState (.divide alg m a b) (settle s)) := by
      rw [exec_of_ready hp hw, unitOf_divide, runUnit]
    obtain ⟨hmode, hopa, hopb⟩ := startState_divide alg m a b (settle s)
    have hcases := runDivide_cases (startState (.divide alg m a b) (settle s))
    simp only [← hexec, hmode, hopa, hopb, WithinCapacity, startState_cap, settle_cap] at hcases
    obtain ⟨t, hnext, hresult⟩ | ⟨hrefused, h⟩ | ⟨hrefused, h⟩ | ⟨hrefused, h⟩ := hcases
    · exact .inl ⟨release t, hnext, release_phase t, hresult⟩
    · exact .inr (.inl ⟨hrefused, alg, m, a, b, rfl, h⟩)
    · exact .inr (.inr (.inl ⟨hrefused, alg, m, a, b, rfl, h⟩))
    · exact .inr (.inr (.inr ⟨hrefused, .inr (.inl ⟨alg, m, a, b, rfl, h⟩)⟩))

theorem decode_endsOrRefused (g : GString) {s : State} (hp : inCall s.phase = false) :
    EndsOrRefused (.decode g) s fun t =>
      (∃ v, callResult t = some (.value v)) ∨ callResult t = some .invalidFormat := by
  cases hw : (Instr.decode g).wellFormed s.cap with
  | false => exact endsOrRefused_of_beyondTypes hp hw
  | true =>
    have hexec := (exec_of_ready hp hw).trans (runUnit_decode g (settle s))
    have hopa : (startState (.decode g) (settle s)).work.opa = g := rfl
    cases hv : validString g with
    | false =>
      rw [decodePhase_invalid (hopa ▸ hv), andThen_next] at hexec
      exact .inl ⟨_, hexec, rfl, .inr rfl⟩
    | true =>
      rw [decodePhase_valid (hopa ▸ hv), startState_cap, settle_cap, hopa] at hexec
      cases hfits : s.cap.fitsValue (value g) with
      | false =>
        rw [hfits] at hexec
        exact .inr (.inr (.inr ⟨hexec, .inr (.inr ⟨g, rfl, hfits⟩)⟩))
      | true =>
        rw [if_pos hfits, andThen_next] at hexec
        exact .inl ⟨_, hexec, rfl, .inl ⟨_, rfl⟩⟩

theorem encode_endsOrRefused (v n : Nat) {s : State} (hp : inCall s.phase = false) :
    EndsOrRefused (.encode v n) s fun t => ∃ g, callResult t = some (.string g) := by
  cases hw : (Instr.encode v n).wellFormed s.cap with
  | false => exact endsOrRefused_of_beyondTypes hp hw
  | true => exact .inl ⟨_, (exec_of_ready hp hw).trans (runUnit_encode v n _), rfl, _, rfl⟩

/-- Settles O55: a call that begins runs its unit, and each branch of PREPARE and of CODEC is a result or a refusal. -/
theorem everyCallEnds : Obligations.EveryCallEnds := by
  intro i s hp
  cases i with
  | divRU a b => exact divide_endsOrRefused .restoring .unsigned a b hp
  | divRS a b => exact divide_endsOrRefused .restoring .signed a b hp
  | divNRU a b => exact divide_endsOrRefused .nonRestoring .unsigned a b hp
  | divNRS a b => exact divide_endsOrRefused .nonRestoring .signed a b hp
  | decode g => exact decode_endsOrRefused g hp
  | encode v n => exact encode_endsOrRefused v n hp

end Sys2Proof.Machine

/-! # Proofs: the addends and the accumulator in the loop (R14, R79, R80, R96, R97, R101, R106) -/

namespace Sys2Proof.Machine

/-! ## Masks and the test bit -/

@[simp] theorem and_mask (v n : Nat) : v &&& mask n = v % 2 ^ n := by
  rw [mask, Nat.one_shiftLeft, Nat.and_two_pow_sub_one_eq_mod]

theorem highHalf_eq_mod (w n : Nat) : highHalf w n = n / 2 ^ w % 2 ^ w := by
  rw [highHalf, and_mask, Nat.shiftRight_eq_div_pow]

/-- For a dividend of `2w` bits the pre-flight comparison is the comparison with the aligned divisor (R87). -/
theorem highHalf_lt_iff {w n d : Nat} (hn : n < 2 ^ (2 * w)) : highHalf w n < d ↔ n < d * 2 ^ w := by
  have hhigh : n / 2 ^ w < 2 ^ w := Nat.div_lt_of_lt_mul (by rwa [← Nat.pow_add, ← Nat.two_mul])
  rw [highHalf_eq_mod, Nat.mod_eq_of_lt hhigh, Nat.div_lt_iff_lt_mul (Nat.two_pow_pos w)]

/-- The test bit is set exactly where the value in `2w+1` bits reaches `2^(2w)` (R14, R19). -/
theorem testBitOf_eq_decide (w acc : Nat) :
    testBitOf w acc = decide (2 ^ (2 * w) ≤ acc % 2 ^ (2 * w + 1)) := by
  rw [testBitOf, Nat.testBit_eq_decide_div_mod_eq, Nat.mod_pow_succ]
  have hlow := Nat.mod_lt acc (Nat.two_pow_pos (2 * w))
  obtain h | h := Nat.mod_two_eq_zero_or_one (acc / 2 ^ (2 * w)) <;> simp [h, hlow]

/-- The quotient bit is written by adding 1 to an even accumulator. -/
theorem or_one_of_even {v : Nat} (h : v % 2 = 0) : v ||| 1 = v + 1 := by
  obtain ⟨c, rfl⟩ := Nat.dvd_of_mod_eq_zero h
  exact (Nat.two_pow_add_eq_or_of_lt (i := 1) (b := 1) (by decide) c).symm

/-- Setting a bit that is set already changes nothing. -/
theorem or_two_pow_of_testBit {v i : Nat} (h : v.testBit i = true) : v ||| 2 ^ i = v := by
  refine Nat.eq_of_testBit_eq fun j => ?_
  rw [Nat.testBit_or, Nat.testBit_two_pow]
  by_cases hij : i = j
  · simp [← hij, h]
  · simp [hij]

/-! ## The addends (R79, R80) -/

theorem complementUnder_of_lt {n v : Nat} (h : v < 2 ^ n) : complementUnder n v = 2 ^ n - 1 - v := by
  rw [complementUnder, and_mask, Nat.mod_eq_of_lt h, mask, Nat.one_shiftLeft, Nat.sub_sub, Nat.add_comm 1 v]
  refine Nat.eq_of_testBit_eq fun i => ?_
  rw [Nat.testBit_xor, Nat.testBit_two_pow_sub_one, Nat.testBit_two_pow_sub_succ h]
  by_cases hi : i < n
  · simp [hi]
  · simp [hi, Nat.testBit_lt_two_pow (h.trans_le (Nat.pow_le_pow_right two_pos (Nat.le_of_not_lt hi)))]

theorem complementDivisor_of_lt {w d : Nat} (hd : d < 2 ^ w) : complementDivisor w d = 2 ^ (w + 1) - d := by
  have hwide : d < 2 ^ (w + 1) := hd.trans (Nat.pow_lt_pow_succ one_lt_two)
  rw [complementDivisor, complementUnder_of_lt hwide]
  omega

/-- The top bit of the complement is set, so SETUP's forcing of the test bit changes nothing (R80). -/
theorem testBit_complementDivisor {w d : Nat} (hpos : 0 < d) (hd : d < 2 ^ w) :
    (complementDivisor w d).testBit w = true := by
  have hcomplement : complementDivisor w d = (2 ^ w - d) + 2 ^ w * 1 := by
    rw [complementDivisor_of_lt hd, Nat.pow_succ]
    omega
  rw [hcomplement, Nat.testBit_eq_decide_div_mod_eq, Nat.add_mul_div_left _ _ (Nat.two_pow_pos w),
    Nat.div_eq_of_lt (Nat.sub_lt (Nat.two_pow_pos w) hpos)]
  rfl

theorem alignedDivisor_eq_mul (w d : Nat) : alignedDivisor w d = d * 2 ^ w := Nat.shiftLeft_eq d w

theorem alignedComplement_of_lt {w d : Nat} (hpos : 0 < d) (hd : d < 2 ^ w) :
    alignedComplement w d = 2 ^ (2 * w + 1) - d * 2 ^ w := by
  have hforce : 1 <<< (2 * w) = 2 ^ w <<< w := by
    rw [Nat.one_shiftLeft, Nat.shiftLeft_eq, ← Nat.pow_add, Nat.two_mul]
  have hpow : 2 ^ (2 * w + 1) = 2 ^ (w + 1) * 2 ^ w := by rw [← Nat.pow_add]; ring_nf
  rw [alignedComplement, hforce, ← Nat.shiftLeft_or_distrib,
    or_two_pow_of_testBit (testBit_complementDivisor hpos hd), complementDivisor_of_lt hd, Nat.shiftLeft_eq,
    Nat.sub_mul, hpow]

/-! ## Long division, one dividend bit at a time (R27, R97) -/

/-- The quotient after `k` iterations of long division: of the `w+k` leading dividend bits (R97). -/
def longDivisionQuot (w n d k : Nat) : Nat := (n >>> (w - k)) / d

theorem longDivisionAcc_zero {w n d : Nat} (hn : n < d * 2 ^ w) : longDivisionAcc w n d 0 = n := by
  have hhigh : n / 2 ^ w < d := (Nat.div_lt_iff_lt_mul (Nat.two_pow_pos w)).mpr hn
  rw [longDivisionAcc, Nat.sub_zero, Nat.shiftRight_eq_div_pow, Nat.mod_eq_of_lt hhigh, Nat.div_eq_of_lt hhigh,
    Nat.pow_zero, Nat.mul_one, Nat.add_zero, Nat.div_add_mod']

/-- After `w` iterations remainder and quotient stand in the two halves. -/
theorem longDivisionAcc_last (w n d : Nat) : longDivisionAcc w n d w = n % d * 2 ^ w + n / d := by
  simp [longDivisionAcc, Nat.mod_one]

/-- The quotient so far has `k` bits. -/
theorem longDivisionQuot_lt {w n d k : Nat} (hk : k ≤ w) (hn : n < d * 2 ^ w) : longDivisionQuot w n d k < 2 ^ k := by
  rw [longDivisionQuot, Nat.shiftRight_eq_div_pow]
  refine Nat.div_lt_of_lt_mul (Nat.div_lt_of_lt_mul ?_)
  have hpow : 2 ^ w = 2 ^ (w - k) * 2 ^ k := by rw [← Nat.pow_add, Nat.sub_add_cancel hk]
  rwa [Nat.mul_left_comm, ← hpow]

/-- Below the remainder so far stand the dividend bits to come and the quotient bits, `w` bits together. -/
theorem longDivision_lowHalf_lt {w n d k : Nat} (hk : k ≤ w) (hn : n < d * 2 ^ w) :
    n % 2 ^ (w - k) * 2 ^ k + longDivisionQuot w n d k < 2 ^ w := by
  have hpow : 2 ^ w = 2 ^ (w - k) * 2 ^ k := by rw [← Nat.pow_add, Nat.sub_add_cancel hk]
  have hrest : (n % 2 ^ (w - k) + 1) * 2 ^ k ≤ 2 ^ (w - k) * 2 ^ k :=
    Nat.mul_le_mul_right _ (Nat.mod_lt n (Nat.two_pow_pos _))
  have hquot := longDivisionQuot_lt hk hn
  rw [Nat.add_mul] at hrest
  omega

/-- The high half of `A_k` stays below the divisor (R97). -/
theorem longDivisionAcc_lt {w n d k : Nat} (hk : k ≤ w) (hn : n < d * 2 ^ w) :
    longDivisionAcc w n d k < d * 2 ^ w := by
  have hpos : 0 < d := Nat.pos_of_mul_pos_right (Nat.zero_lt_of_lt hn)
  have hrem : ((n >>> (w - k)) % d + 1) * 2 ^ w ≤ d * 2 ^ w := Nat.mul_le_mul_right _ (Nat.mod_lt _ hpos)
  have hlow := longDivision_lowHalf_lt hk hn
  rw [Nat.add_mul] at hrem
  rw [longDivisionQuot] at hlow
  rw [longDivisionAcc]
  omega

/-- One more dividend bit: the remainder doubles and takes the bit in, and gives up the divisor where it can. -/
theorem div_mod_double_add {p b d : Nat} (hd : 0 < d) (hb : b < 2) :
    (2 * (p % d) + b < d ∧ (2 * p + b) / d = 2 * (p / d) ∧ (2 * p + b) % d = 2 * (p % d) + b) ∨
    (d ≤ 2 * (p % d) + b ∧ (2 * p + b) / d = 2 * (p / d) + 1 ∧ (2 * p + b) % d + d = 2 * (p % d) + b) := by
  have hrem := Nat.mod_lt p hd
  have hp : 2 * p + b = 2 * (p % d) + b + d * (2 * (p / d)) := by
    have := Nat.mod_add_div p d
    rw [Nat.mul_left_comm]
    omega
  rcases Nat.lt_or_ge (2 * (p % d) + b) d with h | h
  · exact .inl ⟨h, (Nat.div_mod_unique hd).mpr ⟨hp.symm, h⟩⟩
  · have hfits : 2 * (p % d) + b - d < d := by omega
    have hp' : 2 * (p % d) + b - d + d * (2 * (p / d) + 1) = 2 * p + b := by
      rw [Nat.mul_add_one]
      omega
    obtain ⟨hdiv, hmod⟩ := (Nat.div_mod_unique hd).mpr ⟨hp', hfits⟩
    exact .inr ⟨h, hdiv, by omega⟩

/-- One iteration of long division (R97): the accumulator doubles; where its high half then reaches the divisor, the divisor is
taken away and the quotient bit is 1. -/
theorem longDivision_succ_cases {w n d k : Nat} (hk : k < w) (hn : n < d * 2 ^ w) :
    (2 * longDivisionAcc w n d k < d * 2 ^ w ∧
      longDivisionQuot w n d (k + 1) = 2 * longDivisionQuot w n d k ∧
      longDivisionAcc w n d (k + 1) = 2 * longDivisionAcc w n d k) ∨
    (d * 2 ^ w ≤ 2 * longDivisionAcc w n d k ∧
      longDivisionQuot w n d (k + 1) = 2 * longDivisionQuot w n d k + 1 ∧
      longDivisionAcc w n d (k + 1) + d * 2 ^ w = 2 * longDivisionAcc w n d k + 1) := by
  have hpos : 0 < d := Nat.pos_of_mul_pos_right (Nat.zero_lt_of_lt hn)
  have hlow := longDivision_lowHalf_lt (k := k + 1) hk hn
  obtain ⟨j, rfl⟩ : ∃ j, w = j + (k + 1) := Nat.exists_eq_add_of_le' hk
  have hj : j + (k + 1) - k = j + 1 := by omega
  simp only [longDivisionAcc, longDivisionQuot, hj, Nat.add_sub_cancel, Nat.shiftRight_eq_div_pow] at hlow ⊢
  -- the next dividend bit `b`, and the leading dividend bits `p` that it extends
  have hbit : n / 2 ^ j % 2 < 2 := Nat.mod_lt _ two_pos
  have hlead : n / 2 ^ j = 2 * (n / 2 ^ (j + 1)) + n / 2 ^ j % 2 := by
    rw [Nat.pow_succ, ← Nat.div_div_eq_div_mul, Nat.div_add_mod]
  rw [Nat.mod_pow_succ]
  generalize n / 2 ^ j % 2 = b at hbit hlead ⊢
  generalize n / 2 ^ (j + 1) = p at hlead ⊢
  rw [hlead] at hlow ⊢
  have hdouble : 2 * (p % d * 2 ^ (j + (k + 1)) + (n % 2 ^ j + 2 ^ j * b) * 2 ^ k + p / d) =
      (2 * (p % d) + b) * 2 ^ (j + (k + 1)) + (n % 2 ^ j * 2 ^ (k + 1) + 2 * (p / d)) := by ring
  rw [hdouble]
  obtain ⟨hlt, hquot, hrem⟩ | ⟨hge, hquot, hrem⟩ := div_mod_double_add (p := p) hpos hbit
  · have hroom := Nat.mul_le_mul_right (2 ^ (j + (k + 1))) (Nat.succ_le_of_lt hlt)
    rw [Nat.succ_mul] at hroom
    rw [hquot] at hlow
    exact .inl ⟨by omega, hquot, by rw [hquot, hrem]; omega⟩
  · have hroom := Nat.mul_le_mul_right (2 ^ (j + (k + 1))) hge
    rw [hquot] at hlow
    refine .inr ⟨by omega, hquot, ?_⟩
    rw [hquot, ← hrem, Nat.add_mul]
    omega

/-! ## The operation count (R96, R107) -/

theorem popcount_le (w v : Nat) : popcount w v ≤ w := by
  simpa [popcount] using List.length_filter_le (fun i => v.testBit i) (List.range w)

theorem popcount_succ (w v : Nat) : popcount (w + 1) v = v % 2 + popcount w (v / 2) := by
  have hhigh : popcount w (v / 2) = (((List.range w).map Nat.succ).filter fun i => v.testBit i).length := by
    simp [popcount, List.filter_map, Function.comp_def, Nat.testBit_succ]
  rw [hhigh, popcount, List.range_succ_eq_map, List.filter_cons, Nat.testBit_zero]
  obtain h | h := Nat.mod_two_eq_zero_or_one v <;> simp [h, Nat.add_comm]

/-- A quotient bit 0 costs the restoring divider two adds. -/
theorem expectedCount_restoring_double (k q : Nat) :
    expectedCount .restoring (k + 1) (2 * q) = expectedCount .restoring k q + 1 + 1 := by
  have := popcount_le k q
  simp only [expectedCount, popcount_succ, Nat.mul_mod_right, Nat.mul_div_cancel_left q two_pos]
  omega

/-- A quotient bit 1 costs the restoring divider one add. -/
theorem expectedCount_restoring_double_add_one (k q : Nat) :
    expectedCount .restoring (k + 1) (2 * q + 1) = expectedCount .restoring k q + 1 := by
  have := popcount_le k q
  have hdiv : (2 * q + 1) / 2 = q := by omega
  simp only [expectedCount, popcount_succ, hdiv]
  omega

theorem expectedCount_zero (a : Alg) (q : Nat) : expectedCount a 0 q = 0 := by
  cases a
  · exact Nat.zero_sub _
  · rfl

/-! ## One iteration (R93, R97, R101, R106) -/

theorem alignedDivisor_lt {w d : Nat} (hd : d < 2 ^ w) : d * 2 ^ w < 2 ^ (2 * w) := by
  rw [Nat.two_mul, Nat.pow_add]
  exact Nat.mul_lt_mul_of_pos_right hd (Nat.two_pow_pos w)

/-- The test bit of a trial subtraction of the aligned divisor `D` is set exactly where the doubled accumulator is below `D`. -/
theorem testBitOf_trial {w A D : Nat} (hD : D < 2 ^ (2 * w)) (hA : A < D) :
    testBitOf w (2 * A + (2 ^ (2 * w + 1) - D)) = decide (2 * A < D) := by
  rw [testBitOf_eq_decide]
  rcases Nat.lt_or_ge (2 * A) D with h | h
  · rw [Nat.mod_eq_of_lt (by omega)]
    simp only [h, decide_true, decide_eq_true_eq]
    omega
  · have hcarry : 2 * A + (2 ^ (2 * w + 1) - D) = 2 * A - D + 2 ^ (2 * w + 1) := by omega
    rw [hcarry, Nat.add_mod_right, Nat.mod_eq_of_lt (by omega)]
    simp only [Nat.not_lt.mpr h, decide_false, decide_eq_false_iff_not]
    omega

/-- A trial subtraction leaves the low bit clear for the quotient bit. -/
theorem trial_even {w d A : Nat} (hd : d < 2 ^ w) (hA : A < d * 2 ^ w) :
    (2 * A + (2 ^ (2 * w + 1) - d * 2 ^ w)) % 2 = 0 := by
  have hpos : 0 < d := Nat.pos_of_mul_pos_right (Nat.zero_lt_of_lt hA)
  obtain ⟨v, rfl⟩ : ∃ v, w = v + 1 := Nat.exists_eq_succ_of_ne_zero (by rintro rfl; omega)
  have heven : d * 2 ^ (v + 1) = 2 * (d * 2 ^ v) := by ring
  omega

section
variable {k : Work} {A : Nat}

/-- A restoring iteration whose trial subtraction goes below zero: the divisor is added back, two adds. -/
theorem restoringIteration_of_lt (hadd : AddendsSet k) (hd : k.d < 2 ^ k.w) (hacc : k.acc % 2 ^ (2 * k.w + 1) = A)
    (hA : A < k.d * 2 ^ k.w) (h : 2 * A < k.d * 2 ^ k.w) :
    restoringIteration k =
      { k with acc := 2 ^ (2 * k.w + 1) + 2 * A, opc := k.opc + 1 + 1, iter := k.iter + 1 } := by
  obtain ⟨hda, hca⟩ := hadd
  have hD := alignedDivisor_lt hd
  have hrestored : 2 * A + (2 ^ (2 * k.w + 1) - k.d * 2 ^ k.w) + k.d * 2 ^ k.w = 2 ^ (2 * k.w + 1) + 2 * A := by omega
  simp [restoringIteration, Nat.shiftLeft_eq, Nat.mul_comm _ 2, hacc, hca, hda, testBitOf_trial hD hA, h, hrestored]

/-- A restoring iteration whose trial subtraction does not go below zero: quotient bit 1, one add. -/
theorem restoringIteration_of_le (hadd : AddendsSet k) (hd : k.d < 2 ^ k.w) (hacc : k.acc % 2 ^ (2 * k.w + 1) = A)
    (hA : A < k.d * 2 ^ k.w) (h : k.d * 2 ^ k.w ≤ 2 * A) :
    restoringIteration k =
      { k with acc := 2 ^ (2 * k.w + 1) + (2 * A - k.d * 2 ^ k.w) + 1, opc := k.opc + 1, iter := k.iter + 1 } := by
  obtain ⟨-, hca⟩ := hadd
  have hD := alignedDivisor_lt hd
  have hcarry : 2 * A + (2 ^ (2 * k.w + 1) - k.d * 2 ^ k.w) = 2 ^ (2 * k.w + 1) + (2 * A - k.d * 2 ^ k.w) := by omega
  have hbit := testBitOf_trial hD hA
  have hone := or_one_of_even (trial_even hd hA)
  rw [hcarry] at hbit hone
  simp [restoringIteration, Nat.shiftLeft_eq, Nat.mul_comm _ 2, hacc, hca, hcarry, hbit, hone, h]

/-- The non-restoring accumulator stands for `A`: it holds `A`, or `A` less the aligned divisor with the test bit set (R106). -/
def StandsFor (k : Work) (A : Nat) : Prop :=
  k.acc % 2 ^ (2 * k.w + 1) = A ∨ k.acc % 2 ^ (2 * k.w + 1) + k.d * 2 ^ k.w = A + 2 ^ (2 * k.w + 1)

/-- Whatever the test bit was, the addend it selects gives the trial subtraction from the doubled `A` (R106). -/
theorem nonRestoring_sum (hadd : AddendsSet k) (hd : k.d < 2 ^ k.w) (hacc : StandsFor k A) (hA : A < k.d * 2 ^ k.w) :
    (if testBitOf k.w k.acc = false then (2 * k.acc) % 2 ^ (2 * k.w + 1) + k.ca
      else (2 * k.acc) % 2 ^ (2 * k.w + 1) + k.da) = 2 * A + (2 ^ (2 * k.w + 1) - k.d * 2 ^ k.w) := by
  obtain ⟨hda, hca⟩ := hadd
  have hD := alignedDivisor_lt hd
  rw [testBitOf_eq_decide, ← Nat.mul_mod_mod, hda, hca]
  obtain hsame | hless := hacc
  · rw [hsame, if_pos (by simp; omega), Nat.mod_eq_of_lt (by omega)]
  · have hwrap : 2 * (k.acc % 2 ^ (2 * k.w + 1)) =
        2 * A + 2 ^ (2 * k.w + 1) - 2 * (k.d * 2 ^ k.w) + 2 ^ (2 * k.w + 1) := by omega
    rw [if_neg (by simp; omega), hwrap, Nat.add_mod_right, Nat.mod_eq_of_lt (by omega)]
    omega

/-- A non-restoring iteration to a value below zero: quotient bit 0, the divisor stays taken away. -/
theorem nonRestoringIteration_of_lt (hadd : AddendsSet k) (hd : k.d < 2 ^ k.w) (hacc : StandsFor k A)
    (hA : A < k.d * 2 ^ k.w) (h : 2 * A < k.d * 2 ^ k.w) :
    nonRestoringIteration k =
      { k with
        pt := testBitOf k.w k.acc
        acc := 2 ^ (2 * k.w + 1) + 2 * A - k.d * 2 ^ k.w
        opc := k.opc + 1
        iter := k.iter + 1 } := by
  have hD := alignedDivisor_lt hd
  have hvalue : 2 * A + (2 ^ (2 * k.w + 1) - k.d * 2 ^ k.w) = 2 ^ (2 * k.w + 1) + 2 * A - k.d * 2 ^ k.w := by omega
  simp only [nonRestoringIteration, and_mask, Nat.shiftLeft_eq, Nat.pow_one, Nat.mul_comm _ 2,
    nonRestoring_sum hadd hd hacc hA, testBitOf_trial hD hA]
  simp [h, hvalue]

/-- A non-restoring iteration to a value not below zero: quotient bit 1. -/
theorem nonRestoringIteration_of_le (hadd : AddendsSet k) (hd : k.d < 2 ^ k.w) (hacc : StandsFor k A)
    (hA : A < k.d * 2 ^ k.w) (h : k.d * 2 ^ k.w ≤ 2 * A) :
    nonRestoringIteration k =
      { k with
        pt := testBitOf k.w k.acc
        acc := 2 ^ (2 * k.w + 1) + (2 * A - k.d * 2 ^ k.w) + 1
        opc := k.opc + 1
        iter := k.iter + 1 } := by
  have hD := alignedDivisor_lt hd
  have hcarry : 2 * A + (2 ^ (2 * k.w + 1) - k.d * 2 ^ k.w) = 2 ^ (2 * k.w + 1) + (2 * A - k.d * 2 ^ k.w) := by omega
  have hone := or_one_of_even (trial_even hd hA)
  rw [hcarry] at hone
  simp only [nonRestoringIteration, and_mask, Nat.shiftLeft_eq, Nat.pow_one, Nat.mul_comm _ 2,
    nonRestoring_sum hadd hd hacc hA, testBitOf_trial hD hA]
  simp [h, hone, hcarry]

end

/-! ## The whole loop (R97, R106) -/

/-- The quotient bit just written is the parity of `A_k`: the aligned divisor is even. -/
theorem double_longDivisionAcc_lt_iff_even {w n d k : Nat} (hk : k < w) (hn : n < d * 2 ^ w) :
    2 * longDivisionAcc w n d k < d * 2 ^ w ↔ longDivisionAcc w n d (k + 1) % 2 = 0 := by
  obtain ⟨v, rfl⟩ : ∃ v, w = v + 1 := Nat.exists_eq_succ_of_ne_zero (by omega)
  have heven : d * 2 ^ (v + 1) = 2 * (d * 2 ^ v) := by ring
  obtain ⟨hlt, -, hacc⟩ | ⟨hge, -, hacc⟩ := longDivision_succ_cases hk hn <;> omega

/-- The accumulator after `k` iterations: `A_k` with or without the carry bit, or, for the non-restoring divider, less the aligned
divisor. -/
theorem accAfter_cases (a : Alg) {w n d : Nat} (k : Nat) (hn : n < d * 2 ^ w) (hd : d < 2 ^ w) :
    accAfter a w n d k = longDivisionAcc w n d k ∨
    accAfter a w n d k = 2 ^ (2 * w + 1) + longDivisionAcc w n d k ∨
    (a = .nonRestoring ∧ accAfter a w n d k + d * 2 ^ w = 2 ^ (2 * w + 1) + longDivisionAcc w n d k) := by
  have hD := alignedDivisor_lt hd
  unfold accAfter
  split
  · next h0 => exact .inl (by rw [h0, longDivisionAcc_zero hn])
  · cases a with
    | restoring => exact .inr (.inl rfl)
    | nonRestoring =>
      dsimp only
      split
      · exact .inr (.inl rfl)
      · exact .inr (.inr ⟨rfl, by omega⟩)

/-- No value of the loop reaches `2^(2w+2)` (R14). -/
theorem accAfter_lt (a : Alg) {w n d k : Nat} (hk : k ≤ w) (hn : n < d * 2 ^ w) (hd : d < 2 ^ w) :
    accAfter a w n d k < 2 ^ (2 * w + 2) := by
  have hD := alignedDivisor_lt hd
  have hA := longDivisionAcc_lt hk hn
  have hpow : 2 ^ (2 * w + 2) = 4 * 2 ^ (2 * w) := by ring
  obtain h | h | ⟨-, h⟩ := accAfter_cases a k hn hd <;> omega

section
variable {k : Work}

/-- The accumulator holds `A` in `2w+1` bits, with or without the carry bit above them. -/
def Holds (w acc A : Nat) : Prop := acc = A ∨ acc = 2 ^ (2 * w + 1) + A

theorem Holds.mod_eq {w acc A : Nat} (h : Holds w acc A) (hA : A < 2 ^ (2 * w)) : acc % 2 ^ (2 * w + 1) = A := by
  obtain rfl | rfl := h
  · exact Nat.mod_eq_of_lt (by omega)
  · rw [Nat.add_mod_left, Nat.mod_eq_of_lt (by omega)]

/-- The restoring accumulator holds `A_k` (R97). -/
theorem LoopState.holds_restoring (hloop : LoopState k) (halg : k.alg = .restoring) (hn : k.n < k.d * 2 ^ k.w)
    (hd : k.d < 2 ^ k.w) : Holds k.w k.acc (longDivisionAcc k.w k.n k.d k.iter) := by
  obtain h | h | ⟨halg', -⟩ := accAfter_cases k.alg k.iter hn hd
  · exact .inl (hloop.1.trans h)
  · exact .inr (hloop.1.trans h)
  · cases halg.symm.trans halg'

/-- The non-restoring accumulator stands for `A_k` (R106). -/
theorem LoopState.standsFor (hloop : LoopState k) (hk : k.iter ≤ k.w) (hn : k.n < k.d * 2 ^ k.w)
    (hd : k.d < 2 ^ k.w) : StandsFor k (longDivisionAcc k.w k.n k.d k.iter) := by
  have hD := alignedDivisor_lt hd
  have hA := longDivisionAcc_lt hk hn
  unfold StandsFor
  obtain h | h | ⟨-, h⟩ := accAfter_cases k.alg k.iter hn hd
  · exact .inl (by rw [hloop.1, h, Nat.mod_eq_of_lt (by omega)])
  · exact .inl (by rw [hloop.1, h, Nat.add_mod_left, Nat.mod_eq_of_lt (by omega)])
  · exact .inr (by rw [hloop.1, Nat.mod_eq_of_lt (by omega), h, Nat.add_comm])

/-- The dividend, loaded with both counters cleared, is the start of the loop (R81). -/
theorem loopState_loaded (hacc : k.acc = k.n) (hiter : k.iter = 0) (hopc : k.opc = 0) : LoopState k :=
  ⟨by rw [hacc, hiter]; rfl, by rw [hopc, hiter, expectedCount_zero]⟩

/-- One iteration of either algorithm leads the loop from `A_k` to `A_(k+1)` (R97, R106). -/
theorem LoopState.iteration (hloop : LoopState k) (hadd : AddendsSet k) (hk : k.iter < k.w)
    (hn : k.n < k.d * 2 ^ k.w) (hd : k.d < 2 ^ k.w) : LoopState (iteration k) := by
  have hA := longDivisionAcc_lt hk.le hn
  have hparity := double_longDivisionAcc_lt_iff_even hk hn
  have hopc : k.opc = expectedCount k.alg k.iter (longDivisionQuot k.w k.n k.d k.iter) := hloop.2
  cases halg : k.alg with
  | restoring =>
    have hacc := (hloop.holds_restoring halg hn hd).mod_eq (hA.trans (alignedDivisor_lt hd))
    rw [halg] at hopc
    simp only [Machine.iteration, halg]
    obtain ⟨hlt, hquot, hnext⟩ | ⟨hge, hquot, hnext⟩ := longDivision_succ_cases hk hn
    · rw [restoringIteration_of_lt hadd hd hacc hA hlt, ← hnext]
      refine ⟨by simp [accAfter, halg], ?_⟩
      show k.opc + 1 + 1 = expectedCount k.alg (k.iter + 1) (longDivisionQuot k.w k.n k.d (k.iter + 1))
      rw [halg, hquot, expectedCount_restoring_double, hopc]
    · rw [restoringIteration_of_le hadd hd hacc hA hge]
      refine ⟨?_, ?_⟩
      · simp [accAfter, halg]
        omega
      · show k.opc + 1 = expectedCount k.alg (k.iter + 1) (longDivisionQuot k.w k.n k.d (k.iter + 1))
        rw [halg, hquot, expectedCount_restoring_double_add_one, hopc]
  | nonRestoring =>
    have hacc := hloop.standsFor hk.le hn hd
    rw [halg] at hopc
    simp only [Machine.iteration, halg]
    obtain ⟨hlt, -, hnext⟩ | ⟨hge, -, hnext⟩ := longDivision_succ_cases hk hn
    · rw [nonRestoringIteration_of_lt hadd hd hacc hA hlt, ← hnext]
      refine ⟨?_, ?_⟩
      · simp [accAfter, halg, hparity.mp hlt]
      · simp [halg, hopc, expectedCount]
    · rw [nonRestoringIteration_of_le hadd hd hacc hA hge]
      refine ⟨?_, ?_⟩
      · have hodd : longDivisionAcc k.w k.n k.d (k.iter + 1) % 2 = 1 := by omega
        simp [accAfter, halg, hodd]
        omega
      · simp [halg, hopc, expectedCount]

/-- The count of the whole loop (R96, R107). -/
theorem LoopState.opc_last (hloop : LoopState k) (hlast : k.iter = k.w) :
    k.opc = expectedCount k.alg k.w (k.n / k.d) := by
  simpa [hlast] using hloop.2

/-- After the final correction the accumulator holds `A_k` (R103, R106). -/
theorem LoopState.holds_finalCorrection (hloop : LoopState k) (hadd : AddendsSet k) (hk : k.iter ≤ k.w)
    (hn : k.n < k.d * 2 ^ k.w) (hd : k.d < 2 ^ k.w) :
    Holds k.w (finalCorrection k).acc (longDivisionAcc k.w k.n k.d k.iter) := by
  have hD := alignedDivisor_lt hd
  have hA := longDivisionAcc_lt hk hn
  obtain ⟨hda, -⟩ := hadd
  have hclear (h : Holds k.w k.acc (longDivisionAcc k.w k.n k.d k.iter)) : finalCorrection k = k := by
    rw [finalCorrection, testBitOf_eq_decide, h.mod_eq (hA.trans hD), if_neg (by simp; omega)]
  obtain h | h | ⟨-, h⟩ := accAfter_cases k.alg k.iter hn hd <;> rw [← hloop.1] at h
  · rw [hclear (.inl h)]
    exact .inl h
  · rw [hclear (.inr h)]
    exact .inr h
  · refine .inr ?_
    rw [finalCorrection, testBitOf_eq_decide, Nat.mod_eq_of_lt (by omega), if_pos (by simp; omega), ← h, hda]

/-- An accumulator that holds `A_w` has remainder and quotient in its halves, and is within its width (R14, R97). -/
theorem Holds.halves {w acc n d : Nat} (h : Holds w acc (longDivisionAcc w n d w)) (hn : n < d * 2 ^ w)
    (hd : d < 2 ^ w) : acc < 2 ^ (2 * w + 2) ∧ acc % 2 ^ (2 * w) = n % d * 2 ^ w + n / d := by
  have hA := (longDivisionAcc_lt le_rfl hn).trans (alignedDivisor_lt hd)
  have hpow : 2 ^ (2 * w + 2) = 4 * 2 ^ (2 * w) := by ring
  have hmod := h.mod_eq hA
  rw [← longDivisionAcc_last, ← Nat.mod_mod_of_dvd acc (Nat.pow_dvd_pow 2 (Nat.le_succ (2 * w))), hmod]
  refine ⟨?_, Nat.mod_eq_of_lt hA⟩
  obtain rfl | rfl := h <;> omega

end

end Sys2Proof.Machine

/-! # Proofs: what each phase and each step keep (R24) -/

namespace Sys2Proof.Machine

/-! ## PREPARE, from its answer (R76) -/

/-- An operand that can be read has its sign glyph and valid glyphs, and is read as its format says (R48, R49). -/
theorem operand_eq_some {m : Mode} {s : GString} {o : Operand} (h : operand m s = some o) :
    lacksSignGlyph m s = false ∧ validString s = true ∧
    o = { sign := signOf m s, mag := magOf m s, magBits := wordSize m s } := by
  have hsign : lacksSignGlyph m s = false := by
    cases m with
    | unsigned => rfl
    | signed =>
      cases s with
      | nil => cases h
      | cons g rest => rfl
  have hvalid : validString s = true := by
    by_contra hinvalid
    rw [operand_invalid (by simpa using hinvalid)] at h
    cases h
  rw [operand_valid hsign hvalid] at h
  exact ⟨hsign, hvalid, (Option.some.inj h).symm⟩

/-- PREPARE answers a next state by `InvalidFormat`, or by writing the operand registers from two operands that have a meaning. -/
theorem preparePhase_eq_next {s t : State} (h : preparePhase s = .next t) :
    t = raiseError .invalidFormat s ∨
    (WellSpelled s.work.mode s.work.opa s.work.opb ∧ WithinCapacity s.work.mode s.work.opa s.work.opb s ∧
      magOf s.work.mode s.work.opa < 2 ^ (2 * wordSize s.work.mode s.work.opb) ∧ t = preparedState s) := by
  obtain herror | ⟨a, b, ha, hb, hword, hvala, hvalb, hlt, rfl⟩ := preparePhase_cases h
  · exact .inl herror
  · obtain ⟨hsa, hva, rfl⟩ := operand_eq_some ha
    obtain ⟨hsb, hvb, rfl⟩ := operand_eq_some hb
    exact .inr ⟨⟨hsa, hsb, hva, hvb⟩, ⟨hword, hvala, hvalb⟩, hlt, rfl⟩

/-! ## What is fixed from CHECK on -/

/-- The registers of a call that no phase after PREPARE writes: the samples, the selectors and the operands. -/
def Work.operands (k : Work) : Work :=
  { k with acc := 0, da := 0, ca := 0, iter := 0, opc := 0, pt := false, qmag := 0, rem := 0 }

@[simp] theorem iteration_operands (k : Work) : (iteration k).operands = k.operands := by
  obtain ⟨acc, opc, pt, h⟩ := iteration_frame k
  rw [h]
  rfl

@[simp] theorem finalCorrection_operands (k : Work) : (finalCorrection k).operands = k.operands := by
  unfold finalCorrection
  split <;> rfl

theorem OperandsRead.congr {c : Capacity} {k k' : Work} (h : OperandsRead c k) (hk : k'.operands = k.operands) :
    OperandsRead c k' := by
  have hcongr : OperandsRead c k'.operands := hk ▸ (h : OperandsRead c k.operands)
  exact hcongr

theorem CheckPassed.congr {k k' : Work} (h : CheckPassed k) (hk : k'.operands = k.operands) : CheckPassed k' := by
  have hcongr : CheckPassed k'.operands := hk ▸ (h : CheckPassed k.operands)
  exact hcongr

/-- The divisor magnitude has at most `W` bits (R51). -/
theorem magOf_lt (m : Mode) (s : GString) : magOf m s < 2 ^ wordSize m s := value_lt _

theorem OperandsRead.d_lt {c : Capacity} {k : Work} (h : OperandsRead c k) : k.d < 2 ^ k.w := by
  obtain ⟨-, -, -, hw, -, -, -, hd, -⟩ := h
  rw [hd, hw]
  exact magOf_lt _ _

/-- A dividend that passed the check is below the aligned divisor (R87). -/
theorem OperandsRead.n_lt {c : Capacity} {k : Work} (h : OperandsRead c k) (hcheck : CheckPassed k) :
    k.n < k.d * 2 ^ k.w := by
  obtain ⟨-, -, -, -, -, -, -, -, hn⟩ := h
  exact (highHalf_lt_iff hn).mp hcheck

/-- A call that passed the check has a word size of at least 1 (R29). -/
theorem OperandsRead.w_pos {c : Capacity} {k : Work} (h : OperandsRead c k) (hcheck : CheckPassed k) : 0 < k.w := by
  have hd := h.d_lt
  have hn := h.n_lt hcheck
  by_contra hw
  have hzero : k.w = 0 := by omega
  rw [hzero, Nat.pow_zero] at hd hn
  omega

/-! ## What each phase establishes for the next one -/

theorem phaseInv_raiseError {e : Status} (he : e ≠ .ok) (s : State) : PhaseInv (raiseError e s) := he

theorem phaseInv_preparePhase {s t : State} (hunit : s.work.unit = .divisionEngine) (h : preparePhase s = .next t) :
    PhaseInv t := by
  obtain rfl | ⟨hspelled, ⟨hword, -, -⟩, hlt, rfl⟩ := preparePhase_eq_next h
  · exact phaseInv_raiseError (by decide) s
  · exact ⟨hunit, hspelled, hword, rfl, rfl, rfl, rfl, rfl, hlt⟩

theorem phaseInv_checkPhase {s : State} (hread : OperandsRead s.cap s.work) : PhaseInv (checkPhase s) := by
  unfold checkPhase
  split
  · exact phaseInv_raiseError (by decide) s
  · next hpass => exact ⟨hread, by simpa [CheckPassed, overflowCondition] using hpass⟩

theorem phaseInv_setupPhase {s : State} (hread : OperandsRead s.cap s.work) (hcheck : CheckPassed s.work) :
    PhaseInv (setupPhase s) := by
  have hw := hread.w_pos hcheck
  have hpos : 0 < s.work.d := Nat.zero_lt_of_lt hcheck
  have hphase : (setupPhase s).phase = .iterate := if_pos hw
  rw [PhaseInv, hphase]
  exact ⟨hread, hcheck, ⟨alignedDivisor_eq_mul _ _, alignedComplement_of_lt hpos hread.d_lt⟩, hw,
    loopState_loaded rfl rfl rfl⟩

theorem phaseInv_iteratePhase {s : State} (hread : OperandsRead s.cap s.work) (hcheck : CheckPassed s.work)
    (hadd : AddendsSet s.work) (hiter : s.work.iter < s.work.w) (hloop : LoopState s.work) :
    PhaseInv (iteratePhase s) := by
  have hread' : OperandsRead s.cap (iteration s.work) := hread.congr (iteration_operands _)
  have hcheck' : CheckPassed (iteration s.work) := hcheck.congr (iteration_operands _)
  have hloop' := hloop.iteration hadd hiter (hread.n_lt hcheck) hread.d_lt
  obtain ⟨hw, -, -, -, hd, -, -, hda, hca, hcount⟩ := iteration_keeps s.work
  have hadd' : AddendsSet (iteration s.work) := by
    rw [AddendsSet, hda, hca, hd, hw]
    exact hadd
  by_cases hmore : (iteration s.work).iter < (iteration s.work).w
  · have hphase : (iteratePhase s).phase = .iterate := if_pos hmore
    rw [PhaseInv, hphase]
    exact ⟨hread', hcheck', hadd', hmore, hloop'⟩
  · have hlast : (iteration s.work).iter = (iteration s.work).w := by omega
    have hphase : (iteratePhase s).phase = phaseAfterLoop (iteration s.work).alg := if_neg hmore
    cases halg : (iteration s.work).alg with
    | restoring =>
      rw [halg, phaseAfterLoop] at hphase
      rw [PhaseInv, hphase]
      have hholds := hloop'.holds_restoring halg (hread'.n_lt hcheck') hread'.d_lt
      rw [hlast] at hholds
      obtain ⟨hwidth, hhalves⟩ := hholds.halves (hread'.n_lt hcheck') hread'.d_lt
      exact ⟨hread', hcheck', hwidth, hhalves, hloop'.opc_last hlast⟩
    | nonRestoring =>
      rw [halg, phaseAfterLoop] at hphase
      rw [PhaseInv, hphase]
      exact ⟨hread', hcheck', hadd', hlast, halg, hloop'⟩

theorem phaseInv_correctPhase {s : State} (hread : OperandsRead s.cap s.work) (hcheck : CheckPassed s.work)
    (hadd : AddendsSet s.work) (hlast : s.work.iter = s.work.w) (hloop : LoopState s.work) :
    PhaseInv (correctPhase s) := by
  have hholds := hloop.holds_finalCorrection hadd hlast.le (hread.n_lt hcheck) hread.d_lt
  rw [hlast] at hholds
  obtain ⟨hwidth, hhalves⟩ := hholds.halves (hread.n_lt hcheck) hread.d_lt
  obtain ⟨acc, hacc⟩ : ∃ acc, finalCorrection s.work = { s.work with acc := acc } := by
    unfold finalCorrection
    split
    · exact ⟨_, rfl⟩
    · exact ⟨s.work.acc, rfl⟩
  rw [PhaseInv, correctPhase_phase, correctPhase_work]
  rw [hacc] at hwidth hhalves ⊢
  exact ⟨hread, hcheck, hwidth, hhalves, hloop.opc_last hlast⟩

/-- The quotient EXTRACT takes is the low half (R82). -/
theorem extractPhase_qmag (s : State) :
    (extractPhase s).work.qmag = s.work.acc % 2 ^ (2 * s.work.w) % 2 ^ s.work.w := by
  simp only [extractPhase_work, and_mask]

/-- The remainder EXTRACT takes is the high half (R82). -/
theorem extractPhase_rem (s : State) :
    (extractPhase s).work.rem = s.work.acc % 2 ^ (2 * s.work.w) / 2 ^ s.work.w % 2 ^ s.work.w := by
  simp only [extractPhase_work, and_mask, Nat.shiftRight_eq_div_pow]

theorem phaseInv_extractPhase {s : State} (hread : OperandsRead s.cap s.work) (hcheck : CheckPassed s.work)
    (hhalves : s.work.acc % 2 ^ (2 * s.work.w) = s.work.n % s.work.d * 2 ^ s.work.w + s.work.n / s.work.d)
    (hopc : s.work.opc = expectedCount s.work.alg s.work.w (s.work.n / s.work.d)) :
    PhaseInv (extractPhase s) := by
  have hquot : s.work.n / s.work.d < 2 ^ s.work.w := Nat.div_lt_of_lt_mul (hread.n_lt hcheck)
  have hrem : s.work.n % s.work.d < 2 ^ s.work.w := (Nat.mod_lt _ (Nat.zero_lt_of_lt hcheck)).trans hread.d_lt
  have hq : (extractPhase s).work.qmag = s.work.n / s.work.d := by
    rw [extractPhase_qmag, hhalves, Nat.mul_add_mod_self_right, Nat.mod_eq_of_lt hquot]
  have hr : (extractPhase s).work.rem = s.work.n % s.work.d := by
    rw [extractPhase_rem, hhalves, Nat.mul_comm, Nat.mul_add_div (Nat.two_pow_pos _), Nat.div_eq_of_lt hquot,
      Nat.add_zero, Nat.mod_eq_of_lt hrem]
  rw [PhaseInv, extractPhase_phase]
  exact ⟨hread, hcheck, hq, hr, hopc.trans (congrArg _ hq.symm)⟩

theorem phaseInv_signPhase {s : State} (hread : OperandsRead s.cap s.work) (hcheck : CheckPassed s.work)
    (hq : s.work.qmag = s.work.n / s.work.d) (hr : s.work.rem = s.work.n % s.work.d)
    (hopc : s.work.opc = expectedCount s.work.alg s.work.w s.work.qmag) : PhaseInv (signPhase s) :=
  ⟨hread, hcheck, congrArg (signedQuotient s.work.mode s.work.sn s.work.sd) hq, hr, hopc.trans (congrArg _ hq)⟩

theorem phaseInv_codecPhase {s t : State} (h : codecPhase s = .next t) : PhaseInv t := by
  obtain ⟨-, -, rfl⟩ | ⟨v, -, hv, hfits, rfl⟩ | ⟨-, rfl⟩ := codecPhase_cases h
  · exact phaseInv_raiseError (by decide) s
  · exact ⟨hv, hfits⟩
  · exact rfl

/-- What a call in DONE leaves to the idle block: no result of an error is `Ok`. -/
theorem phaseInv_release {s : State} (hp : s.phase = .done) (h : PhaseInv s) : PhaseInv (release s) := by
  intro hread
  rw [release_readable] at hread
  simpa [PhaseInv, hp, hread] using h

/-- Every move of the sequencer leads from what a phase may rely on to what the next one may (R24). -/
theorem PhaseInv.advance {s t : State} (hinv : PhaseInv s) (h : advance s = .next t) : PhaseInv t := by
  have hphase := hinv
  rw [Machine.advance] at h
  rw [PhaseInv] at hphase
  cases hp : s.phase <;> rw [hp] at h hphase
  case idle =>
    cases h
    exact hinv
  case prepare => exact phaseInv_preparePhase hphase h
  case check =>
    cases h
    exact phaseInv_checkPhase hphase
  case setup =>
    cases h
    obtain ⟨hread, hcheck⟩ := hphase
    exact phaseInv_setupPhase hread hcheck
  case iterate =>
    cases h
    obtain ⟨hread, hcheck, hadd, hiter, hloop⟩ := hphase
    exact phaseInv_iteratePhase hread hcheck hadd hiter hloop
  case correct =>
    cases h
    obtain ⟨hread, hcheck, hadd, hlast, -, hloop⟩ := hphase
    exact phaseInv_correctPhase hread hcheck hadd hlast hloop
  case extract =>
    cases h
    obtain ⟨hread, hcheck, -, hhalves, hopc⟩ := hphase
    exact phaseInv_extractPhase hread hcheck hhalves hopc
  case sign =>
    cases h
    obtain ⟨hread, hcheck, hq, hr, hopc⟩ := hphase
    exact phaseInv_signPhase hread hcheck hq hr hopc
  case codec => exact phaseInv_codecPhase h
  case done =>
    cases h
    exact phaseInv_release hp hinv

/-! ## What a move of the sequencer can do, said once -/

/-- A move raises an error, completes a call with a result in SIGN or CODEC, or changes the phase, the working registers and the
counter of free values only; by such a move no call begins and none ends. -/
theorem advance_cases {s t : State} (h : advance s = .next t) :
    (∃ e, e ≠ .ok ∧ t = raiseError e s) ∨
    (∃ r p, (s.phase = .sign ∨ s.phase = .codec) ∧ (p = .division ∨ p = .value ∨ p = .string) ∧
      t = complete r p s) ∨
    (∃ p k f, p ≠ .done ∧ (inCall p = true → inCall s.phase = true) ∧
      t = { s with phase := p, work := k, fresh := f }) := by
  rw [advance] at h
  cases hp : s.phase <;> rw [hp] at h
  case idle =>
    cases h
    exact .inr (.inr ⟨.idle, s.work, s.fresh, by decide, id, by rw [← hp]⟩)
  case prepare =>
    obtain rfl | ⟨-, -, -, rfl⟩ := preparePhase_eq_next h
    · exact .inl ⟨_, by decide, rfl⟩
    · exact .inr (.inr ⟨.check, _, _, by decide, id, rfl⟩)
  case check =>
    cases h
    unfold checkPhase
    split
    · exact .inl ⟨_, by decide, rfl⟩
    · exact .inr (.inr ⟨.setup, _, _, by decide, id, rfl⟩)
  case setup =>
    cases h
    exact .inr (.inr ⟨_, _, _, by split <;> decide, fun _ => rfl, rfl⟩)
  case iterate =>
    cases h
    refine .inr (.inr ⟨_, _, _, ?_, fun _ => rfl, rfl⟩)
    split
    · decide
    · cases (iteration s.work).alg <;> decide
  case correct =>
    cases h
    exact .inr (.inr ⟨.extract, _, _, by decide, id, rfl⟩)
  case extract =>
    cases h
    exact .inr (.inr ⟨.sign, _, _, by decide, id, rfl⟩)
  case sign =>
    cases h
    exact .inr (.inl ⟨_, _, .inl rfl, .inl rfl, rfl⟩)
  case codec =>
    obtain ⟨-, -, rfl⟩ | ⟨v, -, -, -, rfl⟩ | ⟨-, rfl⟩ := codecPhase_cases h
    · exact .inl ⟨_, by decide, rfl⟩
    · exact .inr (.inl ⟨_, _, .inr rfl, .inr (.inl rfl), rfl⟩)
    · exact .inr (.inl ⟨_, _, .inr rfl, .inr (.inr rfl), rfl⟩)
  case done =>
    cases h
    exact .inr (.inr ⟨.idle, _, _, by decide, fun hin => hin, rfl⟩)

/-- No move changes the capacities or the inputs to come. -/
theorem advance_frame {s t : State} (h : advance s = .next t) : t.cap = s.cap ∧ t.inputs = s.inputs := by
  obtain ⟨e, -, rfl⟩ | ⟨r, p, -, -, rfl⟩ | ⟨p, k, f, -, -, rfl⟩ := advance_cases h <;> exact ⟨rfl, rfl⟩

theorem ReadInv.advance {s t : State} (hinv : ReadInv s) (h : advance s = .next t) : ReadInv t := by
  obtain ⟨hok, hhidden⟩ := hinv
  obtain ⟨e, -, rfl⟩ | ⟨r, p, -, -, rfl⟩ | ⟨p, k, f, -, hin, rfl⟩ := advance_cases h
  · exact ⟨fun hread => by simp at hread, fun _ => rfl⟩
  · exact ⟨fun _ => rfl, fun hin => by cases hin⟩
  · exact ⟨hok, fun hp => hhidden (hin hp)⟩

theorem MachineInv.advance {s t : State} (hinv : MachineInv s) (h : advance s = .next t) : MachineInv t := by
  obtain ⟨hcap, hread, hphase⟩ := hinv
  obtain ⟨hkeeps, -⟩ := advance_frame h
  exact ⟨hkeeps ▸ hcap, hread.advance h, hphase.advance h⟩

/-! ## From the start of a call to its answer -/

/-- What every move keeps, any number of moves keep. -/
theorem runPhases_keeps {P : State → Prop} (hmove : ∀ s t, P s → advance s = .next t → P t) (n : Nat) :
    ∀ {s t : State}, P s → runPhases n s = .next t → P t := by
  induction n with
  | zero =>
    intro s t hs h
    cases h
    exact hs
  | succ n ih =>
    intro s t hs h
    obtain ⟨u, hu, ht⟩ := andThen_eq_next.mp h
    exact ih (hmove s u hs hu) ht

/-- What holds where the call of a command begins and is kept by every move holds of its answer: the call is its moves (R6). -/
theorem exec_keeps {P : State → Prop} {i : Instr} {s u : State} (hstart : ∀ t, beginCall i s = .next t → P t)
    (hmove : ∀ s t, P s → advance s = .next t → P t) (h : exec i s = .next u) : P u := by
  rw [exec_eq_begin_then_run] at h
  obtain ⟨t, ht, -⟩ := andThen_eq_next.mp h
  have hmoves := phasesAgreeWithCall i s t (callBound i) ht le_rfl
  rw [exec_eq_begin_then_run, h] at hmoves
  exact runPhases_keeps hmove _ (hstart t ht) hmoves

theorem MachineInv.settle {s : State} (hinv : MachineInv s) : MachineInv (settle s) := by
  by_cases hp : s.phase = .done
  · rw [settle_eq_release hp]
    exact hinv.advance (by rw [Machine.advance, hp])
  · rwa [settle_eq_self hp]

theorem MachineInv.beginCall {i : Instr} {s t : State} (hinv : MachineInv s) (h : beginCall i s = .next t) :
    MachineInv t := by
  obtain ⟨-, -, rfl⟩ := beginCall_eq_next.mp h
  obtain ⟨hcap, -, -⟩ := hinv.settle
  refine ⟨hcap, ⟨fun hread => by simp at hread, fun _ => rfl⟩, ?_⟩
  rw [PhaseInv, startState_phase, ← startState_work, startState_unit]
  cases unitOf i <;> rfl

theorem MachineInv.exec {i : Instr} {s u : State} (hinv : MachineInv s) (h : exec i s = .next u) : MachineInv u :=
  exec_keeps (fun _ => hinv.beginCall) (fun _ _ => MachineInv.advance) h

theorem MachineInv.resetBlock {s : State} (hinv : MachineInv s) : MachineInv (resetBlock s) := by
  obtain ⟨hcap, -, -⟩ := hinv
  exact ⟨hcap, ⟨fun hread => by simp at hread, fun hin => by cases hin⟩, fun hread => by cases hread⟩

/-! ## Events -/

/-- What the block does on an event, from the state without it. -/
def respond (e : Input) (s : State) : Out :=
  match e with
  | .quiet => advance s
  | .call c => dispatchCommand c exec s
  | .start c => dispatchCommand c beginCall s
  | .read reg => harnessRead reg s
  | .reset => .next (resetBlock s)

/-- A step is the response to the next event. -/
theorem step_cons (e : Input) (rest : List Input) (s : State) :
    step { s with inputs := e :: rest } = respond e { s with inputs := rest } := by
  cases e <;> rfl

/-- With no event left a step is a move of the sequencer. -/
theorem step_of_no_input {s : State} (h : s.inputs = []) : step s = advance s := by
  simp [step, takeInput, h]

/-- A read that is answered leaves the settled block. -/
theorem harnessRead_eq_next {reg : ResultReg} {s t : State} (h : harnessRead reg s = .next t) : t = settle s := by
  unfold harnessRead at h
  split at h <;> cases h
  rfl

/-- A presented tuple that is answered is a command. -/
theorem dispatchCommand_eq_next {c : Command} {run : Instr → State → Out} {s t : State}
    (h : dispatchCommand c run s = .next t) : ∃ i, decode c = .instr i ∧ run i s = .next t := by
  unfold dispatchCommand at h
  split at h
  · next i hi => exact ⟨i, hi, h⟩
  · cases h

theorem MachineInv.respond {e : Input} {s t : State} (hinv : MachineInv s) (h : respond e s = .next t) :
    MachineInv t := by
  cases e with
  | quiet => exact hinv.advance h
  | call c =>
    obtain ⟨i, -, hrun⟩ := dispatchCommand_eq_next h
    exact hinv.exec hrun
  | start c =>
    obtain ⟨i, -, hrun⟩ := dispatchCommand_eq_next h
    exact hinv.beginCall hrun
  | read reg =>
    rw [harnessRead_eq_next h]
    exact hinv.settle
  | reset =>
    cases h
    exact hinv.resetBlock

/-- Settles O60: the invariant speaks of no event, and every response to one keeps it; a call keeps it since it is its moves. -/
theorem stepKeepsInvariant : Obligations.StepKeepsInvariant := by
  intro s t hinv h
  cases hin : s.inputs with
  | nil => exact hinv.advance (step_of_no_input hin ▸ h)
  | cons e rest =>
    have hs : s = { s with inputs := e :: rest } := by rw [← hin]
    rw [hs, step_cons] at h
    have htaken : MachineInv { s with inputs := rest } := hinv
    exact htaken.respond h

/-- Settles O59: no result register is marked as a call's, and no call is in progress. -/
theorem resetMeetsInvariant : Obligations.ResetMeetsInvariant :=
  ⟨by decide, ⟨by decide, by decide⟩, fun hread => by cases hread⟩

end Sys2Proof.Machine

/-! # Proofs: moves, events and what may be read -/

namespace Sys2Proof.Machine

/-! ## Moves of the sequencer -/

/-- Settles O32: each row of the phase table, from what the phase answers. -/
theorem phasesFollowTable : Obligations.PhasesFollowTable := by
  intro s t h
  rw [advance] at h
  cases hp : s.phase <;> rw [hp] at h
  case prepare =>
    obtain rfl | ⟨-, -, -, rfl⟩ := preparePhase_eq_next h
    · simp [nextPhases]
    · simp [nextPhases, preparedState]
  case check =>
    cases h
    by_cases hover : s.work.d ≤ highHalf s.work.w s.work.n <;> simp [nextPhases, overflowCondition, hover]
  case setup =>
    cases h
    by_cases hw : 0 < s.work.w <;> simp [nextPhases, hw]
  case iterate =>
    cases h
    obtain ⟨-, -, -, -, -, -, -, -, -, hiter⟩ := iteration_keeps s.work
    by_cases hmore : s.work.iter + 1 < (iteration s.work).w
    · simp [nextPhases, hmore, hiter, Nat.not_le.mpr hmore]
    · cases halg : (iteration s.work).alg <;>
        simp [nextPhases, hmore, hiter, halg, phaseAfterLoop, Nat.le_of_not_lt hmore]
  case codec => obtain ⟨-, -, rfl⟩ | ⟨v, -, -, -, rfl⟩ | ⟨-, rfl⟩ := codecPhase_cases h <;> simp [nextPhases]
  all_goals
    cases h
    simp [nextPhases, hp]

/-- Settles O33: a move that is neither an error nor a completion writes none of these, and the two completions are SIGN and
CODEC. -/
theorem phaseFrame : Obligations.PhaseFrame := by
  intro s t h
  obtain ⟨hcap, hinputs⟩ := advance_frame h
  refine ⟨hcap, hinputs, ?_, ?_, ?_, ?_⟩
  · intro hsign hcodec
    obtain ⟨e, -, rfl⟩ | ⟨r, p, hp, -, rfl⟩ | ⟨p, k, f, -, -, rfl⟩ := advance_cases h
    · rfl
    · exact absurd hp (not_or.mpr ⟨hsign, hcodec⟩)
    · rfl
  · intro hdone
    obtain ⟨e, -, rfl⟩ | ⟨r, p, -, -, rfl⟩ | ⟨p, k, f, -, -, rfl⟩ := advance_cases h
    · exact absurd rfl hdone
    · exact absurd rfl hdone
    · rfl
  · intro hp
    rw [advance, hp] at h
    cases h
    exact ⟨rfl, rfl⟩
  · have hwrites (hp : s.phase = .codec) := codecPhase_cases (by rwa [advance, hp] at h)
    refine ⟨fun hp => ?_, fun hp hdir => ?_, fun hp hdir => ?_⟩
    · obtain ⟨-, -, rfl⟩ | ⟨v, -, -, -, rfl⟩ | ⟨-, rfl⟩ := hwrites hp <;> exact ⟨rfl, rfl, rfl⟩
    · obtain ⟨-, -, rfl⟩ | ⟨v, -, -, -, rfl⟩ | ⟨hencode, rfl⟩ := hwrites hp
      · rfl
      · rfl
      · cases hdir.symm.trans hencode
    · obtain ⟨hdecode, -, rfl⟩ | ⟨v, hdecode, -, -, rfl⟩ | ⟨-, rfl⟩ := hwrites hp
      · rfl
      · cases hdir.symm.trans hdecode
      · rfl

/-- Settles O40: in the loop and at the correction by the accumulator's exact value, at the extraction by the invariant. -/
theorem accumulatorStaysInWidth : Obligations.AccumulatorStaysInWidth := by
  rintro s ⟨-, -, hinv⟩ hp
  rw [PhaseInv] at hinv
  obtain hp | hp | hp := hp <;> rw [hp] at hinv
  · obtain ⟨hread, hcheck, -, hiter, hacc, -⟩ := hinv
    rw [hacc]
    exact accAfter_lt _ hiter.le (hread.n_lt hcheck) hread.d_lt
  · obtain ⟨hread, hcheck, -, hlast, -, hacc, -⟩ := hinv
    rw [hacc]
    exact accAfter_lt _ hlast.le (hread.n_lt hcheck) hread.d_lt
  · obtain ⟨-, -, hwidth, -, -⟩ := hinv
    exact hwidth

/-! ## The answer of a command -/

/-- Only a block with no call in progress answers a command (R126). -/
theorem not_inCall_of_exec {i : Instr} {s t : State} (h : exec i s = .next t) : inCall s.phase = false := by
  rw [exec_eq_begin_then_run] at h
  obtain ⟨u, hu, -⟩ := andThen_eq_next.mp h
  exact (beginCall_eq_next.mp hu).1

/-- Every command that answers a next state ends its call there (R24). -/
theorem exec_endsIdle {i : Instr} {s t : State} (h : exec i s = .next t) : t.phase = .idle := by
  rw [exec_eq_begin_then_run] at h
  obtain ⟨u, -, hrun⟩ := andThen_eq_next.mp h
  cases hunit : unitOf i <;> rw [hunit] at hrun
  case divisionEngine =>
    obtain ⟨p, -, hp⟩ := andThen_eq_next.mp hrun
    split at hp <;> cases hp <;> rfl
  case binaryCodec =>
    obtain ⟨p, -, hp⟩ := andThen_eq_next.mp hrun
    cases hp
    rfl

/-- Settles O56: no move of the call changes the inputs to come or the capacities. -/
theorem commandFrame : Obligations.CommandFrame := by
  intro i s t h
  have hframe : t.inputs = s.inputs ∧ t.cap = s.cap := by
    refine exec_keeps (P := fun u => u.inputs = s.inputs ∧ u.cap = s.cap) ?_ ?_ h
    · intro u hu
      obtain ⟨-, -, rfl⟩ := beginCall_eq_next.mp hu
      simp
    · intro u v ⟨hinputs, hcap⟩ hmove
      obtain ⟨hcap', hinputs'⟩ := advance_frame hmove
      exact ⟨hinputs'.trans hinputs, hcap'.trans hcap⟩
  obtain ⟨hinputs, hcap⟩ := hframe
  exact ⟨hinputs, hcap, exec_endsIdle h, not_inCall_of_exec h⟩

/-- After a command a result can be read only where it ended `Ok` (R21, R23). -/
theorem readInv_of_exec {i : Instr} {s t : State} (h : exec i s = .next t) : ReadInv t := by
  refine exec_keeps ?_ (fun _ _ => ReadInv.advance) h
  intro u hu
  obtain ⟨-, -, rfl⟩ := beginCall_eq_next.mp hu
  exact ⟨fun hread => by simp at hread, fun _ => rfl⟩

/-! ## What may be read -/

/-- The registers a result of this shape can be read from (R53). -/
def CallResult.readable (r : CallResult) : Readable :=
  match r with
  | .division _ _ _ => .division
  | .value _ => .value
  | .string _ => .string
  | .overflow => .statusOnly
  | .invalidFormat => .statusOnly

/-- A result is there to be read from the registers of its shape, and an error is told by `STATUS` alone. -/
theorem readable_of_callResult {s : State} {r : CallResult} (h : callResult s = some r) :
    s.readable = r.readable ∧ (r.readable = .statusOnly → s.status ≠ .ok) := by
  unfold callResult at h
  split at h
  · split at h <;> cases h <;> simp [CallResult.readable, *]
  · cases h

/-- The registers of the result of a command that ends `Ok` (R45, R53). -/
def readableAfter (i : Instr) : Readable :=
  match i with
  | .divRU _ _ => .division
  | .divRS _ _ => .division
  | .divNRU _ _ => .division
  | .divNRS _ _ => .division
  | .decode _ => .value
  | .encode _ _ => .string

theorem DivideResult.readable {t : State} (h : DivideResult t) :
    ∃ r, callResult t = some r ∧ (r.readable = .division ∨ r.readable = .statusOnly) := by
  obtain ⟨q, r, n, hresult⟩ | hresult | hresult := h
  · exact ⟨_, hresult, .inl rfl⟩
  · exact ⟨_, hresult, .inr rfl⟩
  · exact ⟨_, hresult, .inr rfl⟩

/-- A command that answers has a result of its shape or is an error (R7, R53). -/
theorem exec_callResult {i : Instr} {s t : State} (h : exec i s = .next t) :
    ∃ r, callResult t = some r ∧ (r.readable = readableAfter i ∨ r.readable = .statusOnly) := by
  obtain hends | ⟨hrefused, -⟩ | ⟨hrefused, -⟩ | ⟨hrefused, -⟩ := everyCallEnds i s (not_inCall_of_exec h)
  · obtain ⟨u, hu, -, hshape⟩ := hends
    cases h.symm.trans hu
    cases i with
    | divRU a b => exact DivideResult.readable hshape
    | divRS a b => exact DivideResult.readable hshape
    | divNRU a b => exact DivideResult.readable hshape
    | divNRS a b => exact DivideResult.readable hshape
    | decode g =>
      obtain ⟨v, hresult⟩ | hresult := hshape
      · exact ⟨_, hresult, .inl rfl⟩
      · exact ⟨_, hresult, .inr rfl⟩
    | encode v n =>
      obtain ⟨g, hresult⟩ := hshape
      exact ⟨_, hresult, .inl rfl⟩
  all_goals cases h.symm.trans hrefused

/-- After a command `STATUS` alone can be read where it ended in an error, and the registers of its shape where it ended `Ok`. -/
theorem exec_readable {i : Instr} {s t : State} (h : exec i s = .next t) :
    (t.status ≠ .ok ∧ t.readable = .statusOnly) ∨ (t.status = .ok ∧ t.readable = readableAfter i) := by
  obtain ⟨r, hresult, hshape⟩ := exec_callResult h
  obtain ⟨hread, herror⟩ := readable_of_callResult hresult
  obtain ⟨hok, -⟩ := readInv_of_exec h
  obtain hshape | hshape := hshape
  · rw [hshape] at hread
    exact .inr ⟨hok (hread ▸ by cases i <;> simp [readableAfter]), hread⟩
  · exact .inl ⟨herror hshape, hread.trans hshape⟩

theorem readResult_of_canRead {reg : ResultReg} {s : State} (h : canRead s.readable reg = true) :
    readResult reg s = .next (portValue reg s) := if_pos h

theorem readResult_of_not_canRead {reg : ResultReg} {s : State} (h : canRead s.readable reg = false) :
    readResult reg s = .fault (.unspecifiedRead reg) := by
  simp [readResult, h]

/-- `STATUS` can be read at any time (R20, R28). -/
theorem canRead_status (p : Readable) : canRead p .status = true := by cases p <;> rfl

theorem canRead_statusOnly {reg : ResultReg} (h : reg ≠ .status) : canRead .statusOnly reg = false := by
  cases reg
  case status => exact absurd rfl h
  all_goals rfl

/-- After a divide command that ended `Ok` its three result registers can be read, and the codec's cannot (R21). -/
theorem readResult_division {s : State} (h : s.readable = .division) (reg : ResultReg) :
    readResult .q s = .next (.integer s.results.q) ∧ readResult .r s = .next (.natural s.results.r) ∧
    readResult .opcOut s = .next (.natural s.results.opcOut) ∧
    (reg = .value ∨ reg = .str → readResult reg s = .fault (.unspecifiedRead reg)) := by
  refine ⟨?_, ?_, ?_, ?_⟩
  · exact readResult_of_canRead (by rw [h]; rfl)
  · exact readResult_of_canRead (by rw [h]; rfl)
  · exact readResult_of_canRead (by rw [h]; rfl)
  · rintro (rfl | rfl) <;> exact readResult_of_not_canRead (by rw [h]; rfl)

/-- Settles O53: `STATUS` always, and by `exec_readable` either nothing else or the registers of the command's shape. -/
theorem readableAfterCall : Obligations.ReadableAfterCall := by
  intro i s t reg h
  refine ⟨readResult_of_canRead (canRead_status _), fun herror hreg => ?_, fun hok => ?_⟩
  · obtain ⟨-, hread⟩ | ⟨hok, -⟩ := exec_readable h
    · exact readResult_of_not_canRead (hread ▸ canRead_statusOnly hreg)
    · exact absurd hok herror
  · obtain ⟨herror, -⟩ | ⟨-, hread⟩ := exec_readable h
    · exact absurd hok herror
    · cases i with
      | divRU a b => exact readResult_division hread reg
      | divRS a b => exact readResult_division hread reg
      | divNRU a b => exact readResult_division hread reg
      | divNRS a b => exact readResult_division hread reg
      | decode g =>
        refine ⟨readResult_of_canRead (by rw [hread]; rfl), fun hstatus hvalue => readResult_of_not_canRead ?_⟩
        rw [hread]
        cases reg <;> simp_all [canRead, readableAfter]
      | encode v n =>
        refine ⟨readResult_of_canRead (by rw [hread]; rfl), fun hstatus hstr => readResult_of_not_canRead ?_⟩
        rw [hread]
        cases reg <;> simp_all [canRead, readableAfter]

/-- A read is answered from the settled block where it is allowed (log 21). -/
theorem harnessRead_of_canRead {reg : ResultReg} {s : State} (h : canRead s.readable reg = true) :
    harnessRead reg s = .next (settle s) := by
  rw [harnessRead, readResult_of_canRead h]

theorem harnessRead_of_not_canRead {reg : ResultReg} {s : State} (h : canRead s.readable reg = false) :
    harnessRead reg s = .fault (.unspecifiedRead reg) := by
  rw [harnessRead, readResult_of_not_canRead h]

/-- A read event that is allowed uses itself up and settles the block. -/
theorem step_read_of_canRead {reg : ResultReg} {s : State} {rest : List Input}
    (h : canRead s.readable reg = true) :
    step { s with inputs := .read reg :: rest } = .next (settle { s with inputs := rest }) :=
  (step_cons _ rest s).trans (harnessRead_of_canRead (s := { s with inputs := rest }) h)

/-- Settles O54: the start of a call leaves `STATUS` alone to be read, and a read event asks `canRead`. -/
theorem begunCallHidesResults : Obligations.BegunCallHidesResults := by
  refine ⟨fun i s t reg h hreg => ?_, fun s reg rest hcan => ⟨fun hp => ?_, fun hp => ?_⟩, fun s reg rest hcan => ?_⟩
  · obtain ⟨-, -, rfl⟩ := beginCall_eq_next.mp h
    exact readResult_of_not_canRead (canRead_statusOnly hreg)
  · rw [step_read_of_canRead hcan, settle_eq_self (s := { s with inputs := rest }) hp]
  · rw [step_read_of_canRead hcan, settle_eq_release (s := { s with inputs := rest }) hp]
  · exact (step_cons _ rest s).trans (harnessRead_of_not_canRead hcan)

/-- Settles O50: by the members of `Status`. -/
theorem statusCodes : Obligations.StatusCodes := by
  refine ⟨rfl, rfl, rfl, fun x => ?_⟩
  cases x <;> decide

/-! ## Events -/

/-- Settles O6: the response to a presented tuple is the dispatch of what it decodes to. -/
theorem stepRunsPresentedCommand : Obligations.StepRunsPresentedCommand := by
  intro c i s rest hdecode
  simp [step_cons, respond, dispatchCommand, hdecode]

/-- Settles O7: the response to a quiet event is `advance`, and so is a step with no event left. -/
theorem quietStepMovesSequencer : Obligations.QuietStepMovesSequencer := by
  refine fun s rest => ⟨step_cons .quiet rest s, step_of_no_input, fun hin hp => ?_⟩
  rw [step_of_no_input hin, advance, hp]

/-- Settles O10: a call begins in the start state of the settled block, which samples the encoded command. -/
theorem startSamplesInputs : Obligations.StartSamplesInputs := by
  intro i s hp hw
  refine ⟨_, beginCall_ready hp hw, ?_, rfl, by simp, by simp, by simp⟩
  rw [startState_phase, sample]
  cases (encode i).cmd.getLsbD 2 <;> rfl

/-- After a reset there is no result (R25). -/
theorem callResult_afterReset {s : State} (h : s.readable = .afterReset) : callResult s = none := by
  simp [callResult, h]

/-- After a reset every register answers what it holds (log 13). -/
theorem readResult_afterReset {s : State} (h : s.readable = .afterReset) (reg : ResultReg) :
    readResult reg s = .next (portValue reg s) :=
  readResult_of_canRead (by rw [h]; rfl)

/-- Settles O12: both resets leave the block idle and mark every register as holding no result. -/
theorem resetLeavesIdleWithoutResult : Obligations.ResetLeavesIdleWithoutResult := by
  refine ⟨rfl, callResult_afterReset rfl, readResult_afterReset rfl, fun s rest => ?_⟩
  exact ⟨_, step_cons .reset rest s, rfl, rfl, rfl, callResult_afterReset rfl, readResult_afterReset rfl⟩

end Sys2Proof.Machine

/-! # Proofs: the answer of a divide command (R29, R75, R78, R84) -/

namespace Sys2Proof.Machine

/-! ## From SETUP to SIGN -/

/-- The results of a division, in terms of the operand registers (R84, R96, R107). -/
def DivisionWritten (k : Work) (x : Results) : Prop :=
  x.q = signedQuotient k.mode k.sn k.sd (k.n / k.d) ∧ x.r = k.n % k.d ∧
  x.opcOut = expectedCount k.alg k.w (k.n / k.d)

theorem DivisionWritten.congr {k k' : Work} {x : Results} (h : DivisionWritten k x) (hk : k'.operands = k.operands) :
    DivisionWritten k' x := by
  have hcongr : DivisionWritten k'.operands x := hk ▸ (h : DivisionWritten k.operands x)
  exact hcongr

/-- The loop and the correction lead to EXTRACT, keep what the phases may rely on, and leave the operands alone. -/
theorem phaseInv_loop (n : Nat) : ∀ s, IterationsLeft n s → PhaseInv s →
    (correctIfSelected (runLoop n s)).phase = .extract ∧ PhaseInv (correctIfSelected (runLoop n s)) ∧
    (correctIfSelected (runLoop n s)).work.operands = s.work.operands := by
  induction n with
  | zero =>
    intro s hleft hinv
    obtain hp | hp := hleft
    · have hmove : advance s = .next (correctPhase s) := by rw [advance, hp]
      simpa [runLoop, correctIfSelected, hp] using hinv.advance hmove
    · simpa [runLoop, correctIfSelected, hp] using hinv
  | succ n ih =>
    intro s hleft hinv
    have hmove : advance s = .next (iteratePhase s) := by rw [advance, hleft.1]
    obtain ⟨hp, hinv', hops⟩ := ih _ hleft.iterate (hinv.advance hmove)
    exact ⟨hp, hinv', hops.trans (iteration_operands s.work)⟩

/-- A call that passed the check ends with the results of the division (R75). -/
theorem runFromSetup_results {s : State} (hp : s.phase = .setup) (hinv : PhaseInv s) :
    DivisionWritten s.work (runFromSetup s).results := by
  have hsetup : advance s = .next (setupPhase s) := by rw [advance, hp]
  obtain ⟨hextract, hloop, hops⟩ := phaseInv_loop _ _ (iterationsLeft_setup s) (hinv.advance hsetup)
  have hsign : PhaseInv (extractPhase (correctIfSelected (runLoop s.work.w (setupPhase s)))) :=
    hloop.advance (by rw [advance, hextract])
  have hdone : PhaseInv (runFromSetup s) := hsign.advance rfl
  obtain ⟨-, -, hwritten⟩ := hdone
  exact DivisionWritten.congr hwritten hops.symm

theorem runFromCheck_of_passed {s : State} (h : CheckPassed s.work) :
    runFromCheck s = runFromSetup { s with phase := .setup } := by
  have hpass : checkPhase s = { s with phase := .setup } := by
    simp [checkPhase, overflowCondition, Nat.not_le.mpr h]
  rw [runFromCheck, hpass]
  rfl

theorem runFromCheck_of_overflow {s : State} (h : ¬ CheckPassed s.work) : runFromCheck s = raiseError .overflow s := by
  have hover : checkPhase s = raiseError .overflow s := by
    simp [checkPhase, overflowCondition, Nat.le_of_not_lt h]
  rw [runFromCheck, hover]
  rfl

/-! ## From the operands to the answer -/

section
variable {alg : Alg} {m : Mode} {a b : GString} {s : State}

theorem wellFormed_divide (h : Presentable a b s) : (Instr.divide alg m a b).wellFormed s.cap = true := by
  obtain ⟨-, ha, hb⟩ := h
  cases alg <;> cases m <;> simp [Instr.divide, Instr.wellFormed, ha, hb]

/-- A divide command whose inputs can be presented runs its frame from its start state (R75). -/
theorem exec_divide (h : Presentable a b s) :
    exec (.divide alg m a b) s = runDivide (startState (.divide alg m a b) (settle s)) := by
  rw [exec_of_ready h.1 (wellFormed_divide h), unitOf_divide, runUnit]

/-- The start of a divide command latches its algorithm (R12). -/
theorem startState_divide_alg : (startState (.divide alg m a b) s).work.alg = alg := by
  cases alg <;> cases m <;> simp [Instr.divide, sample, encode, Alg.ofBit]

theorem preparePhase_start (h : WellSpelled m a b) :
    preparePhase (startState (.divide alg m a b) (settle s)) =
      if ¬ WithinCapacity m a b s then .refused .beyondCapacity
      else if 2 ^ (2 * wordSize m b) ≤ magOf m a then .refused .dividendTooLarge
      else .next (preparedState (startState (.divide alg m a b) (settle s))) := by
  obtain ⟨hmode, hopa, hopb⟩ := startState_divide alg m a b (settle s)
  have hprepare := preparePhase_wellSpelled (s := startState (.divide alg m a b) (settle s)) (by rwa [hmode, hopa, hopb])
  simpa only [hmode, hopa, hopb, WithinCapacity, startState_cap, settle_cap] using hprepare

/-- The state in which a ready divide command stands at CHECK. -/
def atCheck (alg : Alg) (m : Mode) (a b : GString) (s : State) : State :=
  preparedState (startState (.divide alg m a b) (settle s))

theorem preparePhase_ready (h : DivideReady m a b s) :
    preparePhase (startState (.divide alg m a b) (settle s)) = .next (atCheck alg m a b s) := by
  obtain ⟨-, hcap, hspelled, hlt⟩ := h
  rw [preparePhase_start hspelled, if_neg (not_not.mpr hcap), if_neg (Nat.not_le.mpr hlt), atCheck]

theorem exec_divide_ready (h : DivideReady m a b s) :
    exec (.divide alg m a b) s = .next (release (runFromCheck (atCheck alg m a b s))) := by
  rw [exec_divide h.1, runDivide_of_prepared (preparePhase_ready h), atCheck]

/-- PREPARE has read the operands of a ready divide command (R76). -/
theorem operandsRead_atCheck (h : DivideReady m a b s) :
    OperandsRead (atCheck alg m a b s).cap (atCheck alg m a b s).work :=
  phaseInv_preparePhase ((startState_unit _ _).trans (unitOf_divide alg m a b)) (preparePhase_ready h)

/-- What the operand registers hold at CHECK (R76). -/
theorem atCheck_work (alg : Alg) (m : Mode) (a b : GString) (s : State) :
    (atCheck alg m a b s).work.alg = alg ∧ (atCheck alg m a b s).work.mode = m ∧
    (atCheck alg m a b s).work.w = wordSize m b ∧ (atCheck alg m a b s).work.sn = signOf m a ∧
    (atCheck alg m a b s).work.sd = signOf m b ∧ (atCheck alg m a b s).work.n = magOf m a ∧
    (atCheck alg m a b s).work.d = magOf m b := by
  obtain ⟨hmode, hopa, hopb⟩ := startState_divide alg m a b (settle s)
  have halg := startState_divide_alg (alg := alg) (m := m) (a := a) (b := b) (s := settle s)
  simp only [atCheck, preparedState, hmode, hopa, hopb, halg, and_self]

theorem checkPassed_atCheck : CheckPassed (atCheck alg m a b s).work ↔ CheckPasses m a b := by
  obtain ⟨-, -, hw, -, -, hn, hd⟩ := atCheck_work alg m a b s
  rw [CheckPassed, hw, hn, hd]

/-- A ready divide command whose high half reaches the divisor ends in `Overflow` (R78). -/
theorem divide_overflows (h : DivideReady m a b s) (hcheck : ¬ CheckPasses m a b) :
    EndsIdle (exec (.divide alg m a b) s) fun t => t.status = .overflow ∧ t.readable = .statusOnly := by
  have hover := runFromCheck_of_overflow (checkPassed_atCheck (alg := alg) (s := s).not.mpr hcheck)
  exact ⟨_, exec_divide_ready h, rfl, by rw [hover]; exact ⟨rfl, rfl⟩⟩

/-- A ready divide command that passes the check ends `Ok` with quotient, remainder and operation count (R84, R94 to R105). -/
theorem divide_divides (h : DivideReady m a b s) (hcheck : CheckPasses m a b) :
    EndsIdle (exec (.divide alg m a b) s) fun t =>
      t.status = .ok ∧ t.readable = .division ∧
      t.results.q = signedQuotient m (signOf m a) (signOf m b) (magOf m a / magOf m b) ∧
      t.results.r = magOf m a % magOf m b ∧
      t.results.opcOut = expectedCount alg (wordSize m b) (magOf m a / magOf m b) := by
  have hpassed : CheckPassed (atCheck alg m a b s).work := checkPassed_atCheck.mpr hcheck
  have hexec := exec_divide_ready (alg := alg) h
  rw [runFromCheck_of_passed hpassed] at hexec
  have hwritten := runFromSetup_results (s := { atCheck alg m a b s with phase := .setup }) rfl
    ⟨operandsRead_atCheck h, hpassed⟩
  obtain ⟨halg, hmode, hw, hsn, hsd, hn, hd⟩ := atCheck_work alg m a b s
  simp only [DivisionWritten, halg, hmode, hw, hsn, hsd, hn, hd] at hwritten
  exact ⟨_, hexec, rfl, rfl, rfl, hwritten⟩

/-! ## A divisor of zero (R29) -/

/-- Without magnitude glyphs the magnitude is 0 (R34). -/
theorem magOf_eq_zero (h : wordSize m b = 0) : magOf m b = 0 := by
  have hlt := magOf_lt m b
  rw [h] at hlt
  omega

/-- A call that passes the check has a divisor between 1 and `2^W - 1`, so a word size of at least 1 (R29). -/
theorem divisor_bounds (hcheck : CheckPasses m a b) :
    1 ≤ wordSize m b ∧ 1 ≤ magOf m b ∧ magOf m b ≤ 2 ^ wordSize m b - 1 := by
  have hpos : 1 ≤ magOf m b := Nat.zero_lt_of_lt hcheck
  have hlt := magOf_lt m b
  refine ⟨Nat.one_le_iff_ne_zero.mpr fun hw => ?_, hpos, Nat.le_sub_one_of_lt hlt⟩
  rw [magOf_eq_zero hw] at hpos
  omega

/-- A dividend of `2^(2w)` or more within the capacities is refused (R51). -/
theorem divide_tooLarge (hpresent : Presentable a b s) (hcap : WithinCapacity m a b s) (hspelled : WellSpelled m a b)
    (hlarge : 2 ^ (2 * wordSize m b) ≤ magOf m a) :
    exec (.divide alg m a b) s = .refused .dividendTooLarge := by
  rw [exec_divide hpresent, runDivide_of_refused]
  rw [preparePhase_start hspelled, if_neg (not_not.mpr hcap), if_pos hlarge]

end

/-- Settles O27: no high half is below a divisor of 0, and no dividend but 0 is below `2^0`. -/
theorem zeroDivisorOverflows : Obligations.ZeroDivisorOverflows := by
  intro alg m a b s
  refine ⟨fun h hzero => ?_, magOf_eq_zero, fun hpresent hcap hspelled hw hone => ?_, fun _ => divisor_bounds⟩
  · obtain ⟨t, ht, hp, hstatus, -⟩ := divide_overflows (alg := alg) h (by rw [CheckPasses, hzero]; exact Nat.not_lt_zero _)
    exact ⟨t, ht, hp, hstatus⟩
  · exact divide_tooLarge hpresent hcap hspelled (by rwa [hw])

/-! ## The results on their ports (R22) -/

theorem natAbs_signedQuotient (m : Mode) (sn sd : Bool) (q : Nat) : (signedQuotient m sn sd q).natAbs = q := by
  unfold signedQuotient
  split <;> simp

/-- A quotient of at most `W_MAX` bits is read back from its port in two's complement (D11). -/
theorem toInt_portQ {wMax : Nat} {q : Int} (h : q.natAbs < 2 ^ wMax) : (portQ wMax q).toInt = q := by
  have hpow : ((2 ^ wMax : Nat) : Int) = 2 ^ wMax := by norm_cast
  refine BitVec.toInt_ofInt_eq_self (Nat.succ_pos wMax) ?_ ?_ <;> rw [Nat.succ_sub_one] <;> omega

theorem toNat_portR {wMax r : Nat} (h : r < 2 ^ wMax) : (portR wMax r).toNat = r := by
  rw [portR, BitVec.toNat_ofNat, Nat.mod_eq_of_lt h]

/-- `ceil(log2(n+1))` bits hold `n`. -/
theorem lt_two_pow_ceilLog2 (n : Nat) : n < 2 ^ ceilLog2 (n + 1) := by
  unfold ceilLog2
  split
  · omega
  · exact Nat.lt_log2_self

/-- A count of at most two adds per bit of `W_MAX` is read back from its port (D11). -/
theorem toNat_portOpcOut {wMax n : Nat} (h : n ≤ 2 * wMax) : (portOpcOut wMax n).toNat = n := by
  rw [portOpcOut, BitVec.toNat_ofNat, opcBits, Nat.mod_eq_of_lt (h.trans_lt (lt_two_pow_ceilLog2 _))]

theorem expectedCount_le (a : Alg) (w q : Nat) : expectedCount a w q ≤ 2 * w := by
  cases a <;> simp only [expectedCount] <;> omega

/-- A quotient that passed the check fits in `W` bits (R87). -/
theorem quotient_lt {m : Mode} {a b : GString} {s : State} (h : DivideReady m a b s) (hcheck : CheckPasses m a b) :
    magOf m a / magOf m b < 2 ^ wordSize m b := by
  obtain ⟨-, -, -, hlt⟩ := h
  exact Nat.div_lt_of_lt_mul ((highHalf_lt_iff hlt).mp hcheck)

/-- Settles O51: the magnitudes are below `2^W`, and `W` is within the ports. -/
theorem portEncodingsAreFaithful : Obligations.PortEncodingsAreFaithful := by
  intro alg m a b s wMax h hcheck hw
  obtain ⟨t, ht, hp, -, -, hq, hr, hopc⟩ := divide_divides (alg := alg) h hcheck
  have hquot : t.results.q.natAbs < 2 ^ wordSize m b := by
    rw [hq, natAbs_signedQuotient]
    exact quotient_lt h hcheck
  have hrem : t.results.r ≤ 2 ^ wordSize m b - 2 := by
    have hmod := Nat.mod_lt (magOf m a) (Nat.zero_lt_of_lt hcheck)
    obtain ⟨-, -, hdivisor⟩ := divisor_bounds hcheck
    omega
  have hcount : t.results.opcOut ≤ 2 * wordSize m b := hopc ▸ expectedCount_le alg _ _
  have hports : 2 ^ wordSize m b ≤ 2 ^ wMax := Nat.pow_le_pow_right two_pos hw
  have hpos := Nat.two_pow_pos (wordSize m b)
  have hpow : ((2 ^ wordSize m b : Nat) : Int) = 2 ^ wordSize m b := by norm_cast
  exact ⟨t, ht, hp, by omega, by omega, hrem, toInt_portQ (by omega), toNat_portR (by omega),
    toNat_portOpcOut (by omega)⟩

end Sys2Proof.Machine

/-! # Proofs: string buffers and a call in progress -/

namespace Sys2Proof.Machine

/-! ## String buffers and strings of bits -/

/-- Reading after a write within the buffer or at its end (R31, R32). -/
theorem memRead_memWrite {buffer : GString} {i : Nat} (h : i ≤ buffer.length) (g : Glyph) (j : Nat) :
    memRead (memWrite buffer i g) j = if j = i then some g else memRead buffer j := by
  unfold memRead memWrite
  split
  · next hin => simp [List.getElem?_set, hin, eq_comm]
  · next hout =>
    obtain rfl : i = buffer.length := h.antisymm (Nat.le_of_not_lt hout)
    obtain hj | rfl | hj := lt_trichotomy j buffer.length
    · simp [List.getElem?_append_left hj, hj.ne]
    · simp
    · simp [List.getElem?_eq_none, hj.le, Nat.succ_le_of_lt hj, hj.ne']

/-- Settles O21: the written index and every other index are the two cases of reading after a write. -/
theorem bufferWriteSetsOneGlyph : Obligations.BufferWriteSetsOneGlyph := by
  intro buffer i j g h
  exact ⟨by rw [memRead_memWrite h, if_pos rfl], fun hj => by rw [memRead_memWrite h, if_neg hj]⟩

/-- Settles O14: the first glyph is the summand of index 0, and the others keep their weight in the rest of the string. -/
theorem valueIsBigEndianSum : Obligations.ValueIsBigEndianSum := by
  intro s
  induction s with
  | nil => rfl
  | cons g rest ih =>
    rw [value, ih, List.length_cons, Finset.sum_range_succ', add_comm]
    simp [Nat.sub_sub, Nat.add_comm]

/-! ## A call in progress and the inputs to come (R41, D14) -/

/-- PREPARE reads the sampled operands, not the inputs to come. -/
theorem preparePhase_setInputs (s : State) (x : List Input) :
    preparePhase { s with inputs := x } = andThen (preparePhase s) fun t => .next { t with inputs := x } := by
  unfold preparePhase
  dsimp only
  split
  · rfl
  · split
    · split
      · rfl
      · split <;> rfl
    · rfl

/-- CODEC reads the sampled string or value, not the inputs to come. -/
theorem codecPhase_setInputs (s : State) (x : List Input) :
    codecPhase { s with inputs := x } = andThen (codecPhase s) fun t => .next { t with inputs := x } := by
  cases hdir : s.work.dir with
  | decode =>
    simp only [codecPhase, hdir, decodePhase]
    split
    · rfl
    · split <;> rfl
  | encode => simp only [codecPhase, hdir]; rfl

/-- CHECK compares registers, not the inputs to come. -/
theorem checkPhase_setInputs (s : State) (x : List Input) :
    checkPhase { s with inputs := x } = { checkPhase s with inputs := x } := by
  unfold checkPhase
  dsimp only
  split <;> rfl

/-- Settles O11: the phases with a choice have a lemma each; the others write registers from registers. -/
theorem runningCallIgnoresInputs : Obligations.RunningCallIgnoresInputs := by
  intro s x
  obtain ⟨phase, work, status, results, readable, inputs, cap, fresh⟩ := s
  cases phase
  case prepare => exact preparePhase_setInputs _ x
  case check => exact congrArg Host.Outcome.next (checkPhase_setInputs _ x)
  case codec => exact codecPhase_setInputs _ x
  all_goals rfl

end Sys2Proof.Machine

/-! # Proofs: the command word (R46, R47, R57) -/

namespace Sys2Proof.Machine

/-! ## The opcode map -/

section
variable {c : Command}

theorem decode_word_divRU (h : c.cmd = 0b000#3) : decode c = .instr (.divRU c.opa c.opb) := by
  simp [decode, h, Instr.divide, Alg.ofBit, Mode.ofBit]

theorem decode_word_divRS (h : c.cmd = 0b001#3) : decode c = .instr (.divRS c.opa c.opb) := by
  simp [decode, h, Instr.divide, Alg.ofBit, Mode.ofBit]

theorem decode_word_divNRU (h : c.cmd = 0b010#3) : decode c = .instr (.divNRU c.opa c.opb) := by
  simp [decode, h, Instr.divide, Alg.ofBit, Mode.ofBit]

theorem decode_word_divNRS (h : c.cmd = 0b011#3) : decode c = .instr (.divNRS c.opa c.opb) := by
  simp [decode, h, Instr.divide, Alg.ofBit, Mode.ofBit]

theorem decode_word_decode (h : c.cmd = 0b100#3) : decode c = .instr (.decode c.opa) := by
  simp [decode, h]

theorem decode_word_encode (h : c.cmd = 0b101#3) : decode c = .instr (.encode c.val c.width) := by
  simp [decode, h]

/-- The words with `UNIT = 1` and `CMD[1] = 1` are reserved (R57). -/
theorem decode_word_reserved (h : c.cmd = 0b110#3 ∨ c.cmd = 0b111#3) : decode c = .reserved c.cmd := by
  obtain h | h := h <;> simp [decode, h]

/-- The eight command words: the six rows of the opcode map, and the two reserved words. -/
theorem cmdWord_cases (w : CmdWord) :
    w = 0b000#3 ∨ w = 0b001#3 ∨ w = 0b010#3 ∨ w = 0b011#3 ∨ w = 0b100#3 ∨ w = 0b101#3 ∨
      (w = 0b110#3 ∨ w = 0b111#3) := by
  revert w
  decide

/-- All that the decoder can answer: the command of the word's row, or the reserved word. -/
theorem decode_cases (c : Command) :
    (c.cmd = 0b000#3 ∧ decode c = .instr (.divRU c.opa c.opb)) ∨
    (c.cmd = 0b001#3 ∧ decode c = .instr (.divRS c.opa c.opb)) ∨
    (c.cmd = 0b010#3 ∧ decode c = .instr (.divNRU c.opa c.opb)) ∨
    (c.cmd = 0b011#3 ∧ decode c = .instr (.divNRS c.opa c.opb)) ∨
    (c.cmd = 0b100#3 ∧ decode c = .instr (.decode c.opa)) ∨
    (c.cmd = 0b101#3 ∧ decode c = .instr (.encode c.val c.width)) ∨
    ((c.cmd = 0b110#3 ∨ c.cmd = 0b111#3) ∧ decode c = .reserved c.cmd) :=
  (cmdWord_cases c.cmd).imp (fun h => ⟨h, decode_word_divRU h⟩) <| Or.imp (fun h => ⟨h, decode_word_divRS h⟩) <|
    Or.imp (fun h => ⟨h, decode_word_divNRU h⟩) <| Or.imp (fun h => ⟨h, decode_word_divNRS h⟩) <|
    Or.imp (fun h => ⟨h, decode_word_decode h⟩) <| Or.imp (fun h => ⟨h, decode_word_encode h⟩)
      fun h => ⟨h, decode_word_reserved h⟩

end

/-- Settles O2: the equations of the opcode map. -/
theorem opcodeTableWordsDecode : Obligations.OpcodeTableWordsDecode := fun _ _ _ _ =>
  ⟨decode_word_divRU rfl, decode_word_divRS rfl, decode_word_divNRU rfl, decode_word_divNRS rfl,
    decode_word_decode rfl, decode_word_encode rfl⟩

/-- Settles O3: each command is encoded with the word of its row. -/
theorem encodeThenDecodeGivesCommand : Obligations.EncodeThenDecodeGivesCommand := by
  intro i
  cases i with
  | divRU a b => exact decode_word_divRU rfl
  | divRS a b => exact decode_word_divRS rfl
  | divNRU a b => exact decode_word_divNRU rfl
  | divNRS a b => exact decode_word_divNRS rfl
  | decode g => exact decode_word_decode rfl
  | encode v n => exact decode_word_encode rfl

/-- Settles O1: the decoder branches on `UNIT`, and for a codec command on `CMD[1]` and `DIR`. -/
theorem commandFieldsSelectCommand : Obligations.CommandFieldsSelectCommand := by
  refine fun c => ⟨fun hunit => ?_, fun hunit hcodec => ?_⟩
  · simp only [decode, hunit, Alg.ofBit, Mode.ofBit]
  · simp only [decode, hunit, hcodec]
    cases c.cmd.getLsbD 0 <;> rfl

/-- Settles O4: each row of the opcode map gives back its own word; a reserved word decodes to no command. -/
theorem decodeThenEncodeGivesTuple : Obligations.DecodeThenEncodeGivesTuple := by
  intro c i h
  obtain ⟨hw, hd⟩ | ⟨hw, hd⟩ | ⟨hw, hd⟩ | ⟨hw, hd⟩ | ⟨hw, hd⟩ | ⟨hw, hd⟩ | ⟨-, hd⟩ := decode_cases c
  all_goals cases hd.symm.trans h
  all_goals simp [encode, hw]

/-- Settles O5: the dispatch of a reserved word is its refusal, and every other word has its row in the opcode map. -/
theorem reservedWordsStartNoCall : Obligations.ReservedWordsStartNoCall := by
  refine fun c s rest => ⟨fun h => ?_, fun h6 h7 => ?_⟩
  · simp [step_cons, respond, dispatchCommand, decode_word_reserved h]
  · obtain ⟨-, hd⟩ | ⟨-, hd⟩ | ⟨-, hd⟩ | ⟨-, hd⟩ | ⟨-, hd⟩ | ⟨-, hd⟩ | ⟨hw, -⟩ := decode_cases c
    exacts [⟨_, hd⟩, ⟨_, hd⟩, ⟨_, hd⟩, ⟨_, hd⟩, ⟨_, hd⟩, ⟨_, hd⟩, absurd hw (not_or.mpr ⟨h6, h7⟩)]

end Sys2Proof.Machine

/-! # Proofs: the operand formats of a divide command (R49 to R52) -/

namespace Sys2Proof.Machine

section
variable {alg : Alg} {m : Mode} {a a' b : GString} {s : State}

/-! ## The refused shapes (R5, R49, R51) -/

/-- An operand without its sign glyph is refused (R49). -/
theorem divide_lacksSignGlyph (hpresent : Presentable a b s)
    (h : lacksSignGlyph m a = true ∨ lacksSignGlyph m b = true) :
    exec (.divide alg m a b) s = .refused .signGlyphMissing := by
  obtain ⟨hmode, hopa, hopb⟩ := startState_divide alg m a b (settle s)
  rw [exec_divide hpresent]
  exact runDivide_of_refused (preparePhase_lacksSignGlyph (by rwa [hmode, hopa, hopb]))

/-- A word size or a magnitude beyond capacity is refused, whatever the size of the dividend (R5, log 15). -/
theorem divide_beyondCapacity (hpresent : Presentable a b s) (hspelled : WellSpelled m a b)
    (hcap : ¬ WithinCapacity m a b s) : exec (.divide alg m a b) s = .refused .beyondCapacity := by
  rw [exec_divide hpresent]
  exact runDivide_of_refused ((preparePhase_start hspelled).trans (if_pos hcap))

/-! ## The result as a function of the operands (R52) -/

/-- The result of a ready divide command, in terms of its operands (R53, R78, R84). -/
def divideAnswer (alg : Alg) (m : Mode) (a b : GString) : CallResult :=
  if CheckPasses m a b then
    .division (signedQuotient m (signOf m a) (signOf m b) (magOf m a / magOf m b)) (magOf m a % magOf m b)
      (expectedCount alg (wordSize m b) (magOf m a / magOf m b))
  else .overflow

theorem divide_answers (h : DivideReady m a b s) :
    EndsIdle (exec (.divide alg m a b) s) fun t => callResult t = some (divideAnswer alg m a b) := by
  by_cases hcheck : CheckPasses m a b
  · obtain ⟨t, ht, hp, -, hread, hq, hr, hopc⟩ := divide_divides (alg := alg) h hcheck
    refine ⟨t, ht, hp, (callResult_division hp hread).trans ?_⟩
    rw [hq, hr, hopc, divideAnswer, if_pos hcheck]
  · obtain ⟨t, ht, hp, hstatus, hread⟩ := divide_overflows (alg := alg) h hcheck
    exact ⟨t, ht, hp, by simp [callResult, hp, hread, hstatus, divideAnswer, hcheck]⟩

/-- Of the dividend the result depends on the sign flag and the magnitude alone. -/
theorem divideAnswer_congr (hsign : signOf m a' = signOf m a) (hmag : magOf m a' = magOf m a) :
    divideAnswer alg m a' b = divideAnswer alg m a b := by
  simp only [divideAnswer, CheckPasses, hsign, hmag]

/-- A dividend as well spelled and of the same magnitude, short enough to be presented, is ready where the first one is. -/
theorem DivideReady.of_sameMagnitude (h : DivideReady m a b s) (hmag : magOf m a' = magOf m a)
    (hfits : s.cap.fitsString a'.length = true) (hsigned : lacksSignGlyph m a' = false)
    (hvalid : validString a' = validString a) : DivideReady m a' b s := by
  obtain ⟨⟨hp, -, hb⟩, ⟨hword, hfitsA, hfitsB⟩, ⟨-, hsignedB, hvalidA, hvalidB⟩, hlt⟩ := h
  rw [← hmag] at hfitsA hlt
  exact ⟨⟨hp, hfits, hb⟩, ⟨hword, hfitsA, hfitsB⟩, ⟨hsigned, hsignedB, hvalid.trans hvalidA, hvalidB⟩, hlt⟩

/-- Two ready calls whose dividends have the same sign flag and magnitude have the same result, errors included. -/
theorem divide_sameResult (h : DivideReady m a b s) (h' : DivideReady m a' b s) (hsign : signOf m a' = signOf m a)
    (hmag : magOf m a' = magOf m a) :
    EndsIdle (exec (.divide alg m a b) s) fun t =>
      EndsIdle (exec (.divide alg m a' b) s) fun u => callResult u = callResult t := by
  obtain ⟨t, ht, hpt, hresult⟩ := divide_answers (alg := alg) h
  obtain ⟨u, hu, hpu, hresult'⟩ := divide_answers (alg := alg) h'
  refine ⟨t, ht, hpt, u, hu, hpu, ?_⟩
  exact (hresult'.trans (congrArg some (divideAnswer_congr hsign hmag))).trans hresult.symm

end

@[simp] theorem bitValue_glyphZero : bitValue glyphZero = 0 := bitValue_glyphOfBit false

@[simp] theorem validGlyph_glyphZero : validGlyph glyphZero = true := validGlyph_glyphOfBit false

/-- A leading '0' adds nothing to the sum of R34. -/
@[simp] theorem value_glyphZero_cons (g : GString) : value (glyphZero :: g) = value g := by
  simp [value]

/-- Settles O23: each shape is refused by the branch of PREPARE that meets it. -/
theorem refusedOperandShapes : Obligations.RefusedOperandShapes := fun _ _ _ _ _ hpresent =>
  ⟨divide_lacksSignGlyph hpresent, divide_beyondCapacity hpresent,
    fun hspelled hcap hlarge => divide_tooLarge hpresent hcap hspelled hlarge⟩

/-- Settles O49: in both formats a leading '0' of the magnitude keeps sign flag and magnitude, and so the result. -/
theorem dividendLeadingZerosDoNotMatter : Obligations.DividendLeadingZerosDoNotMatter := by
  refine fun alg a b sign s => ⟨fun h hfits => ?_, fun h hfits => ?_⟩
  · have hmag : magOf .unsigned (glyphZero :: a) = magOf .unsigned a := value_glyphZero_cons a
    have hvalid : validString (glyphZero :: a) = validString a := by simp
    exact divide_sameResult h (h.of_sameMagnitude hmag hfits rfl hvalid) rfl hmag
  · have hmag : magOf .signed (sign :: glyphZero :: a) = magOf .signed (sign :: a) := value_glyphZero_cons a
    have hvalid : validString (sign :: glyphZero :: a) = validString (sign :: a) := by simp
    exact divide_sameResult h (h.of_sameMagnitude hmag hfits rfl hvalid) rfl hmag

end Sys2Proof.Machine

/-! # Proofs: the codec commands (R66 to R71) -/

namespace Sys2Proof.Machine

/-! ## The binary digits of a value -/

/-- The `n` low bits of `v` as glyphs, the most significant first (R34, R69). -/
def binaryDigits (v n : Nat) : GString := (List.range n).reverse.map fun i => glyphOfBit (v.testBit i)

@[simp] theorem binaryDigits_zero (v : Nat) : binaryDigits v 0 = [] := rfl

theorem binaryDigits_succ (v n : Nat) : binaryDigits v (n + 1) = glyphOfBit (v.testBit n) :: binaryDigits v n := by
  simp [binaryDigits, List.range_succ]

@[simp] theorem binaryDigits_length (v n : Nat) : (binaryDigits v n).length = n := by simp [binaryDigits]

@[simp] theorem validString_binaryDigits (v n : Nat) : validString (binaryDigits v n) = true := by
  simp [validString, binaryDigits]

theorem memRead_binaryDigits {v n i : Nat} (h : i < n) :
    memRead (binaryDigits v n) i = some (glyphOfBit (v.testBit (n - 1 - i))) := by
  simp [memRead, binaryDigits, h]

/-- The digits are those of the value modulo `2^n`. -/
theorem binaryDigits_congr {u v n : Nat} (h : u % 2 ^ n = v % 2 ^ n) : binaryDigits u n = binaryDigits v n := by
  refine List.map_congr_left fun i hi => ?_
  have hlt : i < n := by simpa using hi
  have hbit : (u % 2 ^ n).testBit i = (v % 2 ^ n).testBit i := by rw [h]
  simp only [Nat.testBit_mod_two_pow, hlt, decide_true, Bool.true_and] at hbit
  rw [hbit]

/-- The digits stand for the value modulo `2^n` (R34). -/
theorem value_binaryDigits (v n : Nat) : value (binaryDigits v n) = v % 2 ^ n := by
  induction n with
  | zero => simp [value, Nat.mod_one]
  | succ n ih =>
    rw [binaryDigits_succ, value, ih, binaryDigits_length, bitValue_glyphOfBit, Nat.mod_pow_succ, Nat.toNat_testBit]
    ring

/-- A valid glyph is the glyph of the bit it spells (R33). -/
theorem glyphOfBit_of_glyphBit {g : Glyph} {b : Bool} (h : glyphBit g = some b) : glyphOfBit b = g := by
  unfold glyphBit at h
  split at h
  · next hzero => cases h; exact hzero.symm
  · split at h
    · next hone => cases h; exact hone.symm
    · cases h

/-- A valid string is the digits of its value at its own length. -/
theorem binaryDigits_value {g : GString} (h : validString g = true) : binaryDigits (value g) g.length = g := by
  induction g with
  | nil => rfl
  | cons c rest ih =>
    rw [validString_cons, Bool.and_eq_true] at h
    obtain ⟨hc, hrest⟩ := h
    obtain ⟨b, hb⟩ := validGlyph_iff.mp hc
    have hvalue : value (c :: rest) = 2 ^ rest.length * b.toNat + value rest := by
      simp [value, bitValue, hb, Nat.mul_comm]
    have hhead : (value (c :: rest)).testBit rest.length = b := by
      rw [hvalue, Nat.testBit_two_pow_mul_add _ (value_lt rest)]
      cases b <;> simp
    have htail : value (c :: rest) % 2 ^ rest.length = value rest % 2 ^ rest.length := by
      rw [hvalue, Nat.mul_add_mod]
    rw [List.length_cons, binaryDigits_succ, hhead, glyphOfBit_of_glyphBit hb, binaryDigits_congr htail, ih hrest]

/-! ## What `ENCODE` writes -/

/-- Writing at the end of the buffer appends (R32). -/
theorem memWrite_end (buffer : GString) (g : Glyph) : memWrite buffer buffer.length g = buffer ++ [g] := by
  simp [memWrite]

/-- The subtracting loop of R69 appends the digits of a value that fits the glyphs to be written. -/
theorem encodeLoop_appends (k : Nat) : ∀ (v : Nat) (buffer : GString), v < 2 ^ k →
    encodeLoop k buffer.length v buffer = buffer ++ binaryDigits v k := by
  induction k with
  | zero => intro v buffer _; simp [encodeLoop]
  | succ k ih =>
    intro v buffer hv
    have hstep (g : Glyph) (u : Nat) (hu : u < 2 ^ k) :
        encodeLoop k (buffer.length + 1) u (memWrite buffer buffer.length g) = buffer ++ g :: binaryDigits u k := by
      simpa [memWrite_end] using ih u (buffer ++ [g]) hu
    rw [encodeLoop, binaryDigits_succ]
    split
    · next hle =>
      have hbit : v.testBit k = true := Nat.testBit_of_two_pow_le_and_two_pow_add_one_gt hle hv
      have hsub : (v - 2 ^ k) % 2 ^ k = v % 2 ^ k := (Nat.mod_eq_sub_mod hle).symm
      rw [hstep glyphOne _ (by rw [Nat.pow_succ] at hv; omega), hbit, binaryDigits_congr hsub]
      rfl
    · next hgt =>
      have hlt : v < 2 ^ k := Nat.lt_of_not_le hgt
      rw [hstep glyphZero v hlt, Nat.testBit_lt_two_pow hlt]
      rfl

/-- A value that fits is written as its binary digits (R69). -/
theorem encodeString_of_lt {v n : Nat} (h : v < 2 ^ n) : encodeString v n = binaryDigits v n := by
  rw [encodeString, if_pos h]
  exact encodeLoop_appends n v [] h

@[simp] theorem encodeOverflow_length (v n : Nat) : (encodeOverflow v n).length = n := by simp [encodeOverflow]

@[simp] theorem validString_encodeOverflow (v n : Nat) : validString (encodeOverflow v n) = true := by
  simp [validString, encodeOverflow]

/-- `ENCODE` writes as many glyphs as the width says, whether or not the value fits (R69, R71). -/
theorem encodeString_length (v n : Nat) : (encodeString v n).length = n := by
  by_cases h : v < 2 ^ n
  · rw [encodeString_of_lt h, binaryDigits_length]
  · rw [encodeString, if_neg h, encodeOverflow_length]

/-- `ENCODE` writes valid glyphs, whether or not the value fits (R69, R71). -/
theorem validString_encodeString (v n : Nat) : validString (encodeString v n) = true := by
  by_cases h : v < 2 ^ n
  · rw [encodeString_of_lt h, validString_binaryDigits]
  · rw [encodeString, if_neg h, validString_encodeOverflow]

/-! ## The answers of `DECODE` and `ENCODE` within capacity -/

theorem inCall_of_idle {s : State} (h : s.phase = .idle) : inCall s.phase = false := h ▸ rfl

@[simp] theorem fitsString_zero (c : Capacity) : c.fitsString 0 = true := by
  cases h : c.strMax <;> simp [Capacity.fitsString, Capacity.atMost, h]

@[simp] theorem fitsValue_zero (c : Capacity) : c.fitsValue 0 = true := by
  cases h : c.valBits <;> simp [Capacity.fitsValue, h]

section
variable {g : GString} {s : State}

/-- A `DECODE` that can be presented runs CODEC on its string from the start state (R24, R66). -/
theorem exec_decode (hp : inCall s.phase = false) (hlen : s.cap.fitsString g.length = true) :
    exec (.decode g) s =
      andThen (decodePhase (startState (.decode g) (settle s))) fun t => .next (release t) :=
  (exec_of_ready (i := .decode g) hp hlen).trans (runUnit_decode g (settle s))

/-- `DECODE` of valid glyphs completes with their value where it fits, and is refused where it does not (R66, R67). -/
theorem exec_decode_valid (hp : inCall s.phase = false) (hlen : s.cap.fitsString g.length = true)
    (hvalid : validString g = true) :
    exec (.decode g) s =
      if s.cap.fitsValue (value g) = true then
        let start := startState (.decode g) (settle s)
        .next (release (complete { start.results with value := value g } .value start))
      else .refused .beyondCapacity := by
  have hopa : (startState (.decode g) (settle s)).work.opa = g := rfl
  rw [exec_decode hp hlen, decodePhase_valid (hopa ▸ hvalid), startState_cap, settle_cap, hopa]
  split <;> rfl

/-- `DECODE` of valid glyphs gives their value where it fits (R66). -/
theorem decode_answers (hp : inCall s.phase = false) (hlen : s.cap.fitsString g.length = true)
    (hvalid : validString g = true) (hfits : s.cap.fitsValue (value g) = true) :
    EndsIdle (exec (.decode g) s) fun t => t.status = .ok ∧ t.readable = .value ∧ t.results.value = value g := by
  rw [exec_decode_valid hp hlen hvalid, if_pos hfits]
  exact ⟨_, rfl, rfl, rfl, rfl, rfl⟩

/-- `DECODE` of an invalid glyph ends in `InvalidFormat` without a value (R66). -/
theorem decode_invalid (hp : inCall s.phase = false) (hlen : s.cap.fitsString g.length = true)
    (hinvalid : validString g = false) :
    EndsIdle (exec (.decode g) s) fun t => t.status = .invalidFormat ∧ t.readable = .statusOnly := by
  rw [exec_decode hp hlen, decodePhase_invalid (s := startState (.decode g) (settle s)) hinvalid]
  exact ⟨_, rfl, rfl, rfl, rfl⟩

/-- `DECODE` of valid glyphs is refused where their value does not fit (R67, D6). -/
theorem decode_beyondCapacity (hp : inCall s.phase = false) (hlen : s.cap.fitsString g.length = true)
    (hvalid : validString g = true) (hlarge : s.cap.fitsValue (value g) = false) :
    exec (.decode g) s = .refused .beyondCapacity := by
  rw [exec_decode_valid hp hlen hvalid, hlarge]
  rfl

/-- `ENCODE` within capacity writes its string, whether or not the value fits the width (R69, R71). -/
theorem encode_answers {v n : Nat} (hp : inCall s.phase = false) (hval : s.cap.fitsValue v = true)
    (hwidth : s.cap.fitsString n = true) :
    EndsIdle (exec (.encode v n) s) fun t =>
      t.status = .ok ∧ t.readable = .string ∧ t.results.str = encodeString v n := by
  have hw : (Instr.encode v n).wellFormed s.cap = true := by simp [Instr.wellFormed, hval, hwidth]
  exact ⟨_, (exec_of_ready hp hw).trans (runUnit_encode v n (settle s)), rfl, rfl, rfl, rfl⟩

end

/-- A string of at most `VAL_BITS` glyphs has a value that fits (R67). -/
theorem fitsValue_of_length_le {c : Capacity} {g : GString} {bits : Nat} (hbits : c.valBits = some bits)
    (hlen : g.length ≤ bits) : c.fitsValue (value g) = true := by
  have hlt : value g < 2 ^ bits := (value_lt g).trans_le (Nat.pow_le_pow_right two_pos hlen)
  simpa [Capacity.fitsValue, hbits] using hlt

/-- Settles O15: the string is valid or it is not, and `DECODE` answers in each case. -/
theorem decodeCommandMeaning : Obligations.DecodeCommandMeaning := fun _ _ => ⟨decode_answers, decode_invalid⟩

/-- Settles O16: the empty string has value 0, which always fits, as does the value of `VAL_BITS` glyphs or fewer. -/
theorem decodeEdgeCases : Obligations.DecodeEdgeCases := fun s =>
  ⟨fun hp => decode_answers hp (fitsString_zero s.cap) validString_nil (fitsValue_zero s.cap),
    fun _ => decode_beyondCapacity, fun _ _ => fitsValue_of_length_le⟩

/-- Settles O17: the string written is the binary digits of the value. -/
theorem encodeCommandMeaning : Obligations.EncodeCommandMeaning := by
  intro v n s hp hval hwidth hlt
  obtain ⟨t, ht, hidle, hok, hread, hstr⟩ := encode_answers hp hval hwidth
  refine ⟨t, ht, hidle, hok, hread, ?_, fun i hi => ?_⟩
  · rw [hstr, encodeString_length]
  · rw [hstr, encodeString_of_lt hlt, memRead_binaryDigits hi]

/-- Settles O18: length and validity of the string written do not depend on whether the value fits. -/
theorem encodeUnfittingValueCompletes : Obligations.EncodeUnfittingValueCompletes := by
  intro v n s hp hval hwidth _
  obtain ⟨t, ht, hidle, hok, hread, hstr⟩ := encode_answers hp hval hwidth
  exact ⟨t, ht, hidle, hok, hread, hstr ▸ encodeString_length v n, hstr ▸ validString_encodeString v n⟩

/-- Settles O19: the string written is valid, within capacity, and stands for the value. -/
theorem codecRoundTrip : Obligations.CodecRoundTrip := by
  intro v n s hp hval hwidth hlt
  obtain ⟨t, ht, hidle, -, -, hstr⟩ := encode_answers hp hval hwidth
  obtain ⟨-, hcap, -⟩ := commandFrame _ s t ht
  have hvalue : value t.results.str = v := by
    rw [hstr, encodeString_of_lt hlt, value_binaryDigits, Nat.mod_eq_of_lt hlt]
  have hdecode := decode_answers (g := t.results.str) (inCall_of_idle hidle)
    (by rwa [hcap, hstr, encodeString_length]) (hstr ▸ validString_encodeString v n) (by rwa [hcap, hvalue])
  rw [hvalue] at hdecode
  exact ⟨t, ht, hidle, hdecode⟩

/-- Settles O20: the value read fits the length of its string, and the digits of that value are the string. -/
theorem codecConverseRoundTrip : Obligations.CodecConverseRoundTrip := by
  intro g s hp hlen hvalid hfits
  obtain ⟨t, ht, hidle, -, -, hvalue⟩ := decode_answers hp hlen hvalid hfits
  obtain ⟨-, hcap, -⟩ := commandFrame _ s t ht
  have hencode := encode_answers (s := t) (v := value g) (n := g.length) (inCall_of_idle hidle) (by rwa [hcap]) (by rwa [hcap])
  rw [encodeString_of_lt (value_lt g), binaryDigits_value hvalid] at hencode
  rw [← hvalue] at hencode
  exact ⟨t, ht, hidle, hencode⟩

end Sys2Proof.Machine

/-! # Proofs: operand preparation, the pre-flight check and the shared frame of a division (R76 to R89) -/

namespace Sys2Proof.Machine

/-! ## Operand preparation (R76) -/

/-- `W` is the length of the divisor string, less the sign glyph in signed-magnitude mode (R50). -/
theorem wordSize_eq_length_sub (m : Mode) (b : GString) :
    wordSize m b = b.length - (if m = .signed then 1 else 0) := by
  cases m with
  | unsigned => rfl
  | signed => exact List.length_drop

/-- Settles O22: two well-spelled operands pass both bounds of PREPARE, and an invalid glyph raises `InvalidFormat`. -/
theorem prepareAssemblesOperands : Obligations.PrepareAssemblesOperands := by
  rintro m s rfl
  refine ⟨fun hspelled hcap hlt => ?_, preparePhase_invalid⟩
  rw [preparePhase_wellSpelled hspelled, if_neg (not_not.mpr hcap), if_neg (Nat.not_le.mpr hlt), preparedState,
    wordSize_eq_length_sub]

/-- A divide command with an invalid glyph ends in `InvalidFormat`; the check is not reached (R77). -/
theorem divide_invalidFormat {alg : Alg} {m : Mode} {a b : GString} {s : State} (hpresent : Presentable a b s)
    (ha : lacksSignGlyph m a = false) (hb : lacksSignGlyph m b = false)
    (hinvalid : validString a = false ∨ validString b = false) :
    EndsIdle (exec (.divide alg m a b) s) fun t =>
      t.status = .invalidFormat ∧ callResult t = some .invalidFormat := by
  obtain ⟨hmode, hopa, hopb⟩ := startState_divide alg m a b (settle s)
  have hprepare := preparePhase_invalid (s := startState (.divide alg m a b) (settle s)) (by rwa [hmode, hopa])
    (by rwa [hmode, hopb]) (by rwa [hopa, hopb])
  exact ⟨_, (exec_divide hpresent).trans (runDivide_of_invalid hprepare), rfl, rfl, callResult_release_invalidFormat _⟩

/-- Settles O24: the error is raised by PREPARE, before CHECK. -/
theorem invalidFormatBeforeOverflow : Obligations.InvalidFormatBeforeOverflow := fun _ _ _ _ _ => divide_invalidFormat

/-! ## The pre-flight check (R78, R87) -/

/-- Settles O25: the right side of the equivalence is the failing check, and `checkPhase` writes phase and `STATUS` only. -/
theorem overflowExactlyWhenHighHalfReachesDivisor : Obligations.OverflowExactlyWhenHighHalfReachesDivisor := by
  refine ⟨fun alg m a b s h => ?_, fun s => ⟨checkPhase_work s, checkPhase_results s, ?_⟩⟩
  · change EndsIdle _ fun t =>
      (t.status = .overflow ↔ magOf m b ≤ highHalf (wordSize m b) (magOf m a)) ∧ (t.status = .overflow ∨ t.status = .ok)
    by_cases hcheck : CheckPasses m a b
    · obtain ⟨t, ht, hp, hok, -⟩ := divide_divides (alg := alg) h hcheck
      exact ⟨t, ht, hp, by simp [hok, hcheck], .inr hok⟩
    · obtain ⟨t, ht, hp, hover, -⟩ := divide_overflows (alg := alg) h hcheck
      exact ⟨t, ht, hp, by simp [hover, Nat.le_of_not_lt hcheck], .inl hover⟩
  · rw [checkPhase_phase, checkPhase_status]
    cases overflowCondition s.work.w s.work.n s.work.d
    · exact .inr ⟨rfl, rfl⟩
    · exact .inl ⟨rfl, rfl⟩

/-- For a dividend of `2w` bits the mask of the high half takes nothing away (R87). -/
theorem highHalf_eq_div {w n : Nat} (hn : n < 2 ^ (2 * w)) : highHalf w n = n / 2 ^ w := by
  rw [highHalf_eq_mod, Nat.mod_eq_of_lt]
  exact Nat.div_lt_of_lt_mul (by rwa [← Nat.pow_add, ← Nat.two_mul])

/-- The check fails exactly where the dividend reaches the aligned divisor (R87). -/
theorem overflowCondition_iff {w n d : Nat} (hn : n < 2 ^ (2 * w)) :
    overflowCondition w n d = true ↔ d * 2 ^ w ≤ n := by
  rw [overflowCondition, decide_eq_true_iff, ← Nat.not_lt, highHalf_lt_iff hn, Nat.not_lt]

/-- For a divisor other than 0, it fails exactly where the quotient does not fit in `w` bits (R87). -/
theorem overflowCondition_iff_quotient {w n d : Nat} (hn : n < 2 ^ (2 * w)) (hd : 1 ≤ d) :
    overflowCondition w n d = true ↔ 2 ^ w ≤ n / d := by
  rw [overflowCondition_iff hn, Nat.le_div_iff_mul_le hd, Nat.mul_comm]

/-- Settles O26: the comparison with the aligned divisor, read as a bound of the quotient. -/
theorem overflowMeansQuotientDoesNotFit : Obligations.OverflowMeansQuotientDoesNotFit := by
  intro w n d hn
  have hzero (hd : d = 0) : overflowCondition w n d = true := by simp [overflowCondition, hd]
  have hquotient := overflowCondition_iff_quotient (d := d) hn
  refine ⟨highHalf_eq_div hn, fun _ => overflowCondition_iff hn, hquotient, hzero, ?_⟩
  rw [← Bool.not_eq_true]
  obtain hd | hd := Nat.eq_zero_or_pos d
  · rw [hzero hd, hd]
    simp
  · have hpos := Nat.two_pow_pos w
    rw [hquotient hd]
    omega

/-! ## The addends (R79, R80) -/

/-- The aligned divisor is at least `2^w`, and at least `2^w` short of the test bit (R80). -/
theorem alignedDivisor_bounds {w d : Nat} (hpos : 0 < d) (hd : d < 2 ^ w) :
    2 ^ w ≤ d * 2 ^ w ∧ d * 2 ^ w + 2 ^ w ≤ 2 ^ (2 * w) := by
  refine ⟨Nat.le_mul_of_pos_left _ hpos, ?_⟩
  rw [← Nat.succ_mul, Nat.two_mul, Nat.pow_add]
  exact Nat.mul_le_mul_right _ hd

/-- Forcing the test bit changes nothing: the aligned complement is the complement shifted (R80). -/
theorem alignedComplement_eq_shift {w d : Nat} (hpos : 0 < d) (hd : d < 2 ^ w) :
    alignedComplement w d = complementDivisor w d <<< w := by
  rw [alignedComplement_of_lt hpos hd, complementDivisor_of_lt hd, Nat.shiftLeft_eq, Nat.sub_mul, ← Nat.pow_add,
    Nat.two_mul, Nat.add_right_comm]

/-- Settles O28: the values of the addends, and their bounds from those of the aligned divisor. -/
theorem addendValues : Obligations.AddendValues := by
  intro w d hpos hle
  have hd : d < 2 ^ w := Nat.lt_of_le_sub_one (Nat.two_pow_pos w) hle
  have hDA := alignedDivisor_eq_mul w d
  have hCA := alignedComplement_of_lt hpos hd
  have hshift := alignedComplement_eq_shift hpos hd
  obtain ⟨hlow, hhigh⟩ := alignedDivisor_bounds hpos hd
  have hpow : 2 ^ (2 * w + 1) = 2 * 2 ^ (2 * w) := Nat.pow_succ'
  refine ⟨complementUnder_of_lt (hd.trans (Nat.pow_lt_pow_succ one_lt_two)), complementDivisor_of_lt hd,
    testBit_complementDivisor hpos hd, hDA, hDA ▸ alignedDivisor_lt hd, ?_, hshift, hCA, by omega, by omega, ?_, by omega⟩
  · rw [hDA, Nat.mul_mod_left]
  · rw [hshift, Nat.shiftLeft_eq, Nat.mul_mod_left]

/-! ## SETUP, EXTRACT and SIGN (R79 to R84) -/

/-- Settles O29: `setupPhase` with the definitions of the addends written out. -/
theorem setupLoadsRegisters : Obligations.SetupLoadsRegisters := fun _ => rfl

/-- Settles O30: the mask of `2W` bits leaves both halves as they were. -/
theorem extractTakesHalves : Obligations.ExtractTakesHalves := by
  intro s
  have hsplit : 2 ^ (2 * s.work.w) = 2 ^ s.work.w * 2 ^ s.work.w := by rw [Nat.two_mul, Nat.pow_add]
  have hlow : s.work.acc % 2 ^ (2 * s.work.w) % 2 ^ s.work.w = s.work.acc % 2 ^ s.work.w := by
    rw [hsplit, Nat.mod_mul_right_mod]
  have hhigh : s.work.acc % 2 ^ (2 * s.work.w) / 2 ^ s.work.w % 2 ^ s.work.w =
      s.work.acc / 2 ^ s.work.w % 2 ^ s.work.w := by
    rw [hsplit, Nat.mod_mul_right_div_self, Nat.mod_mod]
  simp only [extractPhase, and_mask, Nat.shiftRight_eq_div_pow, hlow, hhigh]

theorem signsDiffer_iff {sn sd : Bool} : signsDiffer sn sd = true ↔ sn ≠ sd := bne_iff_ne

/-- Settles O31: the negation is guarded by the mode and by `signsDiffer`, and SIGN completes the call with its three results. -/
theorem signRuleNegatesQuotientOnly : Obligations.SignRuleNegatesQuotientOnly := by
  intro s
  refine ⟨fun hmode hdiffer => ?_, fun hmode hsame => ?_, fun hmode => ?_, rfl, rfl, rfl, rfl, rfl⟩
  · exact if_pos ⟨hmode, signsDiffer_iff.mpr hdiffer⟩
  · exact if_neg fun h => signsDiffer_iff.mp h.2 hsame
  · exact if_neg fun h => by cases hmode.symm.trans h.1

/-! ## The results of a division (R85, R88) -/

/-- Settles O45: the sign rule keeps the magnitude of the quotient. -/
theorem divisionIdentity : Obligations.DivisionIdentity := by
  intro alg m a b s h hcheck
  obtain ⟨t, ht, hp, hok, -, hq, hr, -⟩ := divide_divides (alg := alg) h hcheck
  refine ⟨t, ht, hp, hok, ?_, ?_⟩
  · rw [hq, hr, natAbs_signedQuotient, Nat.div_add_mod']
  · rw [hr]
    exact Nat.mod_lt _ (Nat.zero_lt_of_lt hcheck)

/-- Each iteration of either divider costs at least one add (R96, R107). -/
theorem le_expectedCount (alg : Alg) (w q : Nat) : w ≤ expectedCount alg w q := by
  cases alg with
  | restoring =>
    have := popcount_le w q
    rw [expectedCount]
    omega
  | nonRestoring => exact le_rfl

/-- Settles O46: quotient and remainder of `divide_divides` do not speak of the algorithm. -/
theorem algorithmsAgree : Obligations.AlgorithmsAgree := by
  intro m a b s h hcheck
  obtain ⟨t, ht, hpt, hokt, -, hqt, hrt, hopct⟩ := divide_divides (alg := .restoring) h hcheck
  obtain ⟨u, hu, hpu, hoku, -, hqu, hru, hopcu⟩ := divide_divides (alg := .nonRestoring) h hcheck
  exact ⟨t, ht, hpt, u, hu, hpu, hokt, hoku, hqt.trans hqu.symm, hrt.trans hru.symm,
    hopct ▸ le_expectedCount _ _ _, hopct ▸ expectedCount_le _ _ _, hopcu⟩

/-! ## The answer of a call as a function of its inputs (R89) -/

/-- A command is refused, or ends with a result to be read (R7, R53). -/
def Answers (o : Out) (x : Except Refusal CallResult) : Prop :=
  match x with
  | .error r => o = .refused r
  | .ok result => ∃ t, o = .next t ∧ callResult t = some result

theorem EndsIdle.answers {o : Out} {P : State → Prop} {result : CallResult} (h : EndsIdle o P)
    (hresult : ∀ t, t.phase = .idle → P t → callResult t = some result) : Answers o (.ok result) := by
  obtain ⟨t, ht, hp, hP⟩ := h
  exact ⟨t, ht, hresult t hp hP⟩

/-- What PREPARE and the frame after it answer, in terms of the operands and the capacities (R75 to R78). -/
def operandsAnswer (c : Capacity) (alg : Alg) (m : Mode) (a b : GString) : Except Refusal CallResult :=
  if lacksSignGlyph m a = true ∨ lacksSignGlyph m b = true then .error .signGlyphMissing
  else if validString a = false ∨ validString b = false then .ok .invalidFormat
  else if ¬ (c.fitsWord (wordSize m b) = true ∧ c.fitsValue (magOf m a) = true ∧ c.fitsValue (magOf m b) = true) then
    .error .beyondCapacity
  else if 2 ^ (2 * wordSize m b) ≤ magOf m a then .error .dividendTooLarge
  else .ok (divideAnswer alg m a b)

/-- What CODEC answers to a `DECODE`, in terms of the string and the capacities (R66, R67). -/
def decodeAnswer (c : Capacity) (g : GString) : Except Refusal CallResult :=
  if validString g = false then .ok .invalidFormat
  else if c.fitsValue (value g) = false then .error .beyondCapacity
  else .ok (.value (value g))

/-- What a command answers from a block with no call in progress, in terms of its operands and the capacities. -/
def callAnswer (c : Capacity) (i : Instr) : Except Refusal CallResult :=
  if i.wellFormed c = false then .error .beyondCapacity
  else
    match i with
    | .divRU a b => operandsAnswer c .restoring .unsigned a b
    | .divRS a b => operandsAnswer c .restoring .signed a b
    | .divNRU a b => operandsAnswer c .nonRestoring .unsigned a b
    | .divNRS a b => operandsAnswer c .nonRestoring .signed a b
    | .decode g => decodeAnswer c g
    | .encode v n => .ok (.string (encodeString v n))

/-- The conditions of PREPARE, in their order, decide what a presentable divide command answers. -/
theorem divide_answers_operands {alg : Alg} {m : Mode} {a b : GString} {s : State} (hpresent : Presentable a b s) :
    Answers (exec (.divide alg m a b) s) (operandsAnswer s.cap alg m a b) := by
  unfold operandsAnswer
  split
  · next hlacks => exact divide_lacksSignGlyph hpresent hlacks
  · next hsigned =>
    obtain ⟨ha, hb⟩ : lacksSignGlyph m a = false ∧ lacksSignGlyph m b = false := by simpa using hsigned
    split
    · next hinvalid => exact (divide_invalidFormat hpresent ha hb hinvalid).answers fun _ _ h => h.2
    · next hvalid =>
      obtain ⟨hva, hvb⟩ : validString a = true ∧ validString b = true := by simpa using hvalid
      have hspelled : WellSpelled m a b := ⟨ha, hb, hva, hvb⟩
      split
      · next hcap => exact divide_beyondCapacity hpresent hspelled hcap
      · next hcap =>
        have hwithin : WithinCapacity m a b s := not_not.mp hcap
        split
        · next hlarge => exact divide_tooLarge hpresent hwithin hspelled hlarge
        · next hlt =>
          exact (divide_answers ⟨hpresent, hwithin, hspelled, Nat.lt_of_not_le hlt⟩).answers fun _ _ h => h

theorem decode_answers_string {g : GString} {s : State} (hp : inCall s.phase = false)
    (hlen : s.cap.fitsString g.length = true) : Answers (exec (.decode g) s) (decodeAnswer s.cap g) := by
  unfold decodeAnswer
  split
  · next hinvalid =>
    refine (decode_invalid hp hlen hinvalid).answers fun t hidle ⟨hstatus, hread⟩ => ?_
    simp [callResult, hidle, hread, hstatus]
  · next hvalid =>
    rw [Bool.not_eq_false] at hvalid
    split
    · next hlarge => exact decode_beyondCapacity hp hlen hvalid hlarge
    · next hfits =>
      refine (decode_answers hp hlen hvalid (by simpa using hfits)).answers fun t hidle ⟨_, hread, hvalue⟩ => ?_
      simp [callResult, hidle, hread, hvalue]

/-- Every command, with no call in progress, answers as its operands and the capacities say. -/
theorem exec_answers {i : Instr} {s : State} (hp : inCall s.phase = false) :
    Answers (exec i s) (callAnswer s.cap i) := by
  unfold callAnswer
  split
  · next hw => exact exec_of_beginCall_refused (beginCall_beyondTypes hp hw)
  · next hfits =>
    have hw : i.wellFormed s.cap = true := by simpa using hfits
    cases i with
    | divRU a b => exact divide_answers_operands (alg := .restoring) (m := .unsigned) ⟨hp, Bool.and_eq_true_iff.mp hw⟩
    | divRS a b => exact divide_answers_operands (alg := .restoring) (m := .signed) ⟨hp, Bool.and_eq_true_iff.mp hw⟩
    | divNRU a b =>
      exact divide_answers_operands (alg := .nonRestoring) (m := .unsigned) ⟨hp, Bool.and_eq_true_iff.mp hw⟩
    | divNRS a b =>
      exact divide_answers_operands (alg := .nonRestoring) (m := .signed) ⟨hp, Bool.and_eq_true_iff.mp hw⟩
    | decode g => exact decode_answers_string hp hw
    | encode v n =>
      obtain ⟨hval, hwidth⟩ := Bool.and_eq_true_iff.mp hw
      refine (encode_answers hp hval hwidth).answers fun t hidle ⟨_, hread, hstr⟩ => ?_
      simp [callResult, hidle, hread, hstr]

/-- The outcome code that goes with a result (R20, R53). -/
def CallResult.status (r : CallResult) : Status :=
  match r with
  | .division _ _ _ => .ok
  | .value _ => .ok
  | .string _ => .ok
  | .overflow => .overflow
  | .invalidFormat => .invalidFormat

/-- A result that is there to be read determines `STATUS`. -/
theorem status_of_callResult {s : State} {r : CallResult} (hread : ReadInv s) (h : callResult s = some r) :
    s.status = r.status := by
  obtain ⟨hok, -⟩ := hread
  unfold callResult at h
  split at h
  · split at h <;> cases h <;> simp_all [CallResult.status]
  · cases h

/-- Settles O57: both calls answer what `callAnswer` says, which reads the operands and the capacities alone. -/
theorem callIsPure : Obligations.CallIsPure := by
  intro i s₁ s₂ hp₁ hp₂ hcap
  have h₁ := exec_answers (i := i) hp₁
  have h₂ := exec_answers (i := i) hp₂
  rw [hcap] at h₁
  cases hanswer : callAnswer s₂.cap i <;> rw [hanswer] at h₁ h₂
  case error r => exact ⟨fun t ht => (by cases ht.symm.trans h₁), fun r' hr => (by cases hr.symm.trans h₁; exact h₂)⟩
  case ok result =>
    obtain ⟨u₁, hu₁, hresult₁⟩ := h₁
    obtain ⟨u₂, hu₂, hresult₂⟩ := h₂
    refine ⟨fun t ht => ?_, fun r hr => by cases hr.symm.trans hu₁⟩
    cases hu₁.symm.trans ht
    have hstatus₁ := status_of_callResult (readInv_of_exec hu₁) hresult₁
    have hstatus₂ := status_of_callResult (readInv_of_exec hu₂) hresult₂
    exact ⟨u₂, hu₂, hstatus₂.trans hstatus₁.symm, hresult₂.trans hresult₁.symm⟩

end Sys2Proof.Machine

/-! # Proofs: the restoring divider (R93 to R97) -/

namespace Sys2Proof.Machine

/-! ## The loop from a loaded dividend (R97) -/

/-- Iterations change `ACC`, `OPC` and `PT` at most, and count themselves in `ITER`. -/
theorem iterate_iteration_frame (k : Work) (j : Nat) :
    ∃ acc opc pt, iteration^[j] k = { k with acc := acc, opc := opc, pt := pt, iter := k.iter + j } := by
  induction j with
  | zero => exact ⟨k.acc, k.opc, k.pt, rfl⟩
  | succ j ih =>
    obtain ⟨acc, opc, pt, hloop⟩ := ih
    obtain ⟨acc', opc', pt', hnext⟩ := iteration_frame (iteration^[j] k)
    refine ⟨acc', opc', pt', ?_⟩
    rw [Function.iterate_succ_apply', hnext, hloop]
    rfl

/-- The iterations of either algorithm lead the loop on, up to the word size (R97, R106). -/
theorem LoopState.iterate {k : Work} (hloop : LoopState k) (hadd : AddendsSet k) (hn : k.n < k.d * 2 ^ k.w)
    (hd : k.d < 2 ^ k.w) (j : Nat) (hj : k.iter + j ≤ k.w) : LoopState (Machine.iteration^[j] k) := by
  induction j with
  | zero => exact hloop
  | succ j ih =>
    have hloop' := ih (Nat.le_of_succ_le hj)
    rw [Function.iterate_succ_apply']
    obtain ⟨acc, opc, pt, hk⟩ := iterate_iteration_frame k j
    rw [hk] at hloop' ⊢
    exact hloop'.iteration hadd hj hn hd

/-- The working registers with another algorithm selected. -/
def Work.withAlg (a : Alg) (k : Work) : Work := { k with alg := a }

/-- The restoring iteration does not read `ALG`: it is the iteration that runs where `ALG` selects it. -/
theorem withAlg_restoringIteration :
    Function.Semiconj (Work.withAlg .restoring) restoringIteration iteration :=
  fun _ => apply_ite (Work.withAlg .restoring) _ _ _

/-- From a loaded dividend, `j` restoring iterations are `j` steps of long division, counted as R96 says (R97). -/
theorem restoringLoop_longDivision {k : Work} {j : Nat} (hadd : AddendsSet k) (hn : k.n < k.d * 2 ^ k.w)
    (hd : k.d < 2 ^ k.w) (hacc : k.acc = k.n) (hopc : k.opc = 0) (hiter : k.iter = 0) (hj : j ≤ k.w) :
    Holds k.w (restoringIteration^[j] k).acc (longDivisionAcc k.w k.n k.d j) ∧
    (restoringIteration^[j] k).opc = expectedCount .restoring j (longDivisionQuot k.w k.n k.d j) ∧
    (restoringIteration^[j] k).iter = j := by
  have hstart : LoopState (k.withAlg .restoring) := loopState_loaded hacc hiter hopc
  have hend := hstart.iterate hadd hn hd j ((Nat.add_comm _ _).trans_le (hiter ▸ hj))
  have hsame := withAlg_restoringIteration.iterate_right j k
  obtain ⟨acc, opc, pt, hframe⟩ := iterate_iteration_frame (k.withAlg .restoring) j
  have hcount : (k.withAlg .restoring).iter + j = j := by rw [Work.withAlg, hiter, Nat.zero_add]
  rw [hframe, hcount] at hend hsame
  have hacc' : (restoringIteration^[j] k).acc = acc := congrArg Work.acc hsame
  exact ⟨hacc' ▸ hend.holds_restoring rfl hn hd, (congrArg Work.opc hsame).trans hend.2, congrArg Work.iter hsame⟩

/-- Settles O36: after `w` steps of long division the accumulator holds remainder and quotient. -/
theorem restoringLoopDivides : Obligations.RestoringLoopDivides := by
  intro k hn hcheck hd hda hca hacc hopc hiter k'
  have hlt : k.n < k.d * 2 ^ k.w := (Nat.div_lt_iff_lt_mul (Nat.two_pow_pos _)).mp hcheck
  obtain ⟨hholds, hcount, hlast⟩ := restoringLoop_longDivision ⟨hda, hca⟩ hlt hd hacc hopc hiter le_rfl
  have hA := (longDivisionAcc_lt le_rfl hlt).trans (alignedDivisor_lt hd)
  refine ⟨(hholds.mod_eq hA).trans (longDivisionAcc_last _ _ _), ?_, hlast⟩
  simpa [longDivisionQuot, expectedCount] using hcount

/-! ## One iteration (R93, R97) -/

/-- Settles O34: `restoringIteration` with its mask and its shift in arithmetic. -/
theorem restoringIterationSteps : Obligations.RestoringIterationSteps := by
  intro k trial
  have htrial : (k.acc &&& mask (2 * k.w + 1)) <<< 1 + k.ca = trial := by
    rw [and_mask, Nat.shiftLeft_eq, Nat.pow_one, Nat.mul_comm]
  refine ⟨fun hclear => ?_, fun hset => ?_⟩
  · simp only [restoringIteration, htrial, testBitOf, hclear, if_true]
  · simp only [restoringIteration, htrial, testBitOf, hset, Bool.true_eq_false, if_false]

/-- An accumulator that is left with the carry bit above a value below the aligned divisor is within its width, has its test bit
clear and its high half below the divisor again (R97). -/
theorem carry_add_bounds {w d B : Nat} (hd : d < 2 ^ w) (hB : B < d * 2 ^ w) :
    2 ^ (2 * w + 1) + B < 2 ^ (2 * w + 2) ∧ (2 ^ (2 * w + 1) + B) % 2 ^ (2 * w + 1) < 2 ^ (2 * w) ∧
    (2 ^ (2 * w + 1) + B) % 2 ^ (2 * w + 1) / 2 ^ w < d := by
  have hlow : B < 2 ^ (2 * w) := hB.trans (alignedDivisor_lt hd)
  have hpow : 2 ^ (2 * w + 2) = 4 * 2 ^ (2 * w) := by ring
  rw [Holds.mod_eq (.inr rfl) hlow]
  exact ⟨by omega, hlow, (Nat.div_lt_iff_lt_mul (Nat.two_pow_pos w)).mpr hB⟩

/-- Settles O35: the trial subtraction goes below zero exactly where the doubled accumulator is below the aligned divisor. -/
theorem restoringIterationValue : Obligations.RestoringIterationValue := by
  intro k A hA _ hhigh hd hda hca k'
  have hpos : 0 < 2 ^ k.w := Nat.two_pow_pos k.w
  have hlt : A < k.d * 2 ^ k.w := (Nat.div_lt_iff_lt_mul hpos).mp hhigh
  have hfits : k.d ≤ 2 * A / 2 ^ k.w ↔ k.d * 2 ^ k.w ≤ 2 * A := Nat.le_div_iff_mul_le hpos
  have hle := restoringIteration_of_le ⟨hda, hca⟩ hd hA.symm hlt
  have hless := restoringIteration_of_lt ⟨hda, hca⟩ hd hA.symm hlt
  refine ⟨fun h => hle (hfits.mp h), fun h => hless (by omega), ?_⟩
  obtain ⟨B, hB, hacc⟩ : ∃ B, B < k.d * 2 ^ k.w ∧ k'.acc = 2 ^ (2 * k.w + 1) + B := by
    rcases Nat.lt_or_ge (2 * A) (k.d * 2 ^ k.w) with h | h
    · exact ⟨2 * A, h, congrArg Work.acc (hless h)⟩
    · exact ⟨2 * A - k.d * 2 ^ k.w + 1, by omega, congrArg Work.acc (hle h)⟩
  rw [hacc]
  exact carry_add_bounds hd hB

/-! ## The divide commands (R94, R95) -/

/-- The sign rule reads the sign flags of the operands; in unsigned mode both are clear (R84). -/
theorem signedQuotient_signOf (m : Mode) (a b : GString) (q : Nat) :
    signedQuotient m (signOf m a) (signOf m b) q = if signOf m a = signOf m b then (q : Int) else -(q : Int) := by
  cases m with
  | unsigned => rfl
  | signed => simp [signedQuotient, signsDiffer_iff]

/-- A divide command means what its algorithm and its mode say (R94, R95, R104, R105). -/
theorem divideMeaning (alg : Alg) (m : Mode) : DivideMeaning alg m (Instr.divide alg m) := by
  refine fun a b s => ⟨fun hpresent ha hb hinvalid => ?_, divide_overflows, fun h hcheck => ?_⟩
  · obtain ⟨t, ht, hp, hstatus, hresult⟩ := divide_invalidFormat (alg := alg) hpresent ha hb hinvalid
    obtain ⟨hread, -⟩ := readable_of_callResult hresult
    exact ⟨t, ht, hp, hstatus, hread⟩
  · obtain ⟨t, ht, hp, hok, hread, hq, hr, hopc⟩ := divide_divides (alg := alg) h hcheck
    exact ⟨t, ht, hp, hok, hread, hq.trans (signedQuotient_signOf m a b _), hr, hopc⟩

/-- Settles O41: `DIV.R.U` is the divide command of these two selectors. -/
theorem unsignedRestoringDivision : Obligations.UnsignedRestoringDivision := divideMeaning .restoring .unsigned

/-- Settles O42: `DIV.R.S` is the divide command of these two selectors. -/
theorem signedRestoringDivision : Obligations.SignedRestoringDivision := divideMeaning .restoring .signed

/-! ## The operation count (R96) -/

/-- Each of the `w` low bits is 1 or 0. -/
theorem popcount_add_zeros (w v : Nat) :
    popcount w v + ((List.range w).filter fun i => !v.testBit i).length = w := by
  rw [popcount, ← List.length_eq_length_filter_add, List.length_range]

theorem popcount_zero (w : Nat) : popcount w 0 = 0 := by simp [popcount]

theorem popcount_two_pow_sub_one (w : Nat) : popcount w (2 ^ w - 1) = w := by
  have hones : ((List.range w).filter fun i => (2 ^ w - 1).testBit i) = List.range w :=
    List.filter_eq_self.mpr fun i hi => by simpa using hi
  rw [popcount, hones, List.length_range]

/-- Settles O47: the count of `divide_divides`, and the sign rule keeps the magnitude of the quotient. -/
theorem restoringOperationCount : Obligations.RestoringOperationCount := by
  intro m a b s h hcheck
  obtain ⟨t, ht, hp, -, -, hq, -, hopc⟩ := divide_divides (alg := .restoring) h hcheck
  have hmag : t.results.q.natAbs = magOf m a / magOf m b := by rw [hq, natAbs_signedQuotient]
  have hcount : t.results.opcOut = 2 * wordSize m b - popcount (wordSize m b) t.results.q.natAbs := by
    rw [hopc, hmag, expectedCount]
  have hbits := popcount_add_zeros (wordSize m b) t.results.q.natAbs
  refine ⟨t, ht, hp, hcount, by omega, by omega, by omega, fun hones => ?_, fun hzero => ?_⟩
  · rw [hcount, hones, popcount_two_pow_sub_one]
    omega
  · rw [hcount, hzero, popcount_zero, Nat.sub_zero]

end Sys2Proof.Machine

/-! # Proofs: the non-restoring divider (R101 to R107) -/

namespace Sys2Proof.Machine

/-! ## One iteration (R101) -/

/-- The accumulator after the add of a non-restoring iteration: shifted, masked, and the addend that the test bit selects added
(R101, steps b and c). -/
def nonRestoringSum (k : Work) : Nat :=
  if k.acc.testBit (2 * k.w) = true then 2 * k.acc % 2 ^ (2 * k.w + 1) + k.da
  else 2 * k.acc % 2 ^ (2 * k.w + 1) + k.ca

/-- One non-restoring iteration, with its shift and its mask in arithmetic (R101). -/
theorem nonRestoringIteration_eq (k : Work) :
    nonRestoringIteration k =
      { k with
        pt := k.acc.testBit (2 * k.w)
        acc := if (nonRestoringSum k).testBit (2 * k.w) = true then nonRestoringSum k else nonRestoringSum k ||| 1
        opc := k.opc + 1
        iter := k.iter + 1 } := by
  have hsum : (if testBitOf k.w k.acc = false then 2 * k.acc % 2 ^ (2 * k.w + 1) + k.ca
      else 2 * k.acc % 2 ^ (2 * k.w + 1) + k.da) = nonRestoringSum k := by
    simp only [nonRestoringSum, testBitOf, ← Bool.not_eq_true, ite_not]
  simp only [nonRestoringIteration, and_mask, Nat.shiftLeft_eq, Nat.pow_one, Nat.mul_comm _ 2, hsum]
  simp only [testBitOf, ← Bool.not_eq_true, ite_not]

/-- Settles O37: a loaded dividend lies below the test bit. -/
theorem nonRestoringIterationSteps : Obligations.NonRestoringIterationSteps := fun k =>
  ⟨nonRestoringIteration_eq k, Nat.testBit_lt_two_pow⟩

/-- With aligned addends the add leaves the last bit clear for the quotient bit (R101). -/
theorem nonRestoringSum_even {k : Work} (hw : 0 < k.w) (hda : k.da % 2 ^ k.w = 0) (hca : k.ca % 2 ^ k.w = 0) :
    nonRestoringSum k % 2 = 0 := by
  have heven : 2 ∣ 2 ^ k.w := dvd_pow_self 2 hw.ne'
  have hda' : 2 ∣ k.da := heven.trans (Nat.dvd_of_mod_eq_zero hda)
  have hca' : 2 ∣ k.ca := heven.trans (Nat.dvd_of_mod_eq_zero hca)
  have hshifted : 2 ∣ 2 * k.acc % 2 ^ (2 * k.w + 1) :=
    (Nat.dvd_mod_iff (dvd_pow_self 2 (Nat.succ_ne_zero _))).mpr (Nat.dvd_mul_right 2 _)
  rw [nonRestoringSum]
  split <;> omega

/-- The quotient bit is far below the test bit: an iteration leaves the test bit of its add. -/
theorem testBit_nonRestoringIteration {k : Work} (hw : 0 < k.w) :
    (nonRestoringIteration k).acc.testBit (2 * k.w) = (nonRestoringSum k).testBit (2 * k.w) := by
  have hone : Nat.testBit 1 (2 * k.w) = false := Nat.testBit_lt_two_pow (Nat.one_lt_two_pow (by omega))
  rw [nonRestoringIteration_eq]
  dsimp only
  split
  · rfl
  · rw [Nat.testBit_or, hone, Bool.or_false]

/-! ## The final correction (R103) -/

theorem finalCorrection_of_set {k : Work} (h : k.acc.testBit (2 * k.w) = true) :
    finalCorrection k = { k with acc := k.acc + k.da } := if_pos h

theorem finalCorrection_of_clear {k : Work} (h : k.acc.testBit (2 * k.w) = false) : finalCorrection k = k :=
  if_neg (by simp [testBitOf, h])

/-- The correction adds a multiple of `2^w` or nothing: the low half is final before it (R103). -/
theorem finalCorrection_lowHalf {k : Work} (hda : k.da % 2 ^ k.w = 0) :
    (finalCorrection k).acc % 2 ^ k.w = k.acc % 2 ^ k.w := by
  cases h : k.acc.testBit (2 * k.w) with
  | false => rw [finalCorrection_of_clear h]
  | true => rw [finalCorrection_of_set h, Nat.add_mod, hda, Nat.add_zero, Nat.mod_mod]

/-- Settles O39: where an iteration leaves the test bit set it has written no quotient bit. -/
theorem correctionIsNotCounted : Obligations.CorrectionIsNotCounted := by
  refine fun k => ⟨finalCorrection_of_set, finalCorrection_of_clear, finalCorrection_lowHalf, fun hw hda hca hset => ?_⟩
  rw [testBit_nonRestoringIteration hw] at hset
  rw [nonRestoringIteration_eq]
  dsimp only
  rw [if_pos hset]
  exact nonRestoringSum_even hw hda hca

/-! ## The loop from a loaded dividend (R106, R107) -/

/-- From a loaded dividend, `j` non-restoring iterations lead the accumulator to its value of R106, each counted once (R107). -/
theorem nonRestoringLoop_eq {k : Work} {j : Nat} (hadd : AddendsSet k) (hn : k.n < k.d * 2 ^ k.w) (hd : k.d < 2 ^ k.w)
    (hacc : k.acc = k.n) (hopc : k.opc = 0) (hiter : k.iter = 0) (hj : j ≤ k.w) :
    ∃ pt, nonRestoringIteration^[j] k =
      { k with acc := accAfter .nonRestoring k.w k.n k.d j, opc := j, iter := j, pt := pt } := by
  induction j with
  | zero =>
    cases k
    cases hacc
    cases hopc
    cases hiter
    exact ⟨_, rfl⟩
  | succ j ih =>
    obtain ⟨pt, hk⟩ := ih (Nat.le_of_succ_le hj)
    have hloop : LoopState ((nonRestoringIteration^[j] k).withAlg .nonRestoring) := by
      rw [hk]
      exact ⟨rfl, rfl⟩
    rw [Function.iterate_succ_apply']
    rw [hk] at hloop ⊢
    obtain ⟨hnext, -⟩ := hloop.iteration hadd hj hn hd
    refine ⟨testBitOf k.w (accAfter .nonRestoring k.w k.n k.d j), ?_⟩
    rw [← show _ = accAfter .nonRestoring k.w k.n k.d (j + 1) from hnext]
    rfl

section
variable {k : Work} {A : Nat}

/-- With the test bit clear, an accumulator that stands for `A` holds `A` (R106). -/
theorem StandsFor.mod_eq_of_clear (h : StandsFor k A) (hd : k.d < 2 ^ k.w)
    (hclear : k.acc.testBit (2 * k.w) = false) : k.acc % 2 ^ (2 * k.w + 1) = A := by
  have hD := alignedDivisor_lt hd
  have hlow : ¬ 2 ^ (2 * k.w) ≤ k.acc % 2 ^ (2 * k.w + 1) :=
    of_decide_eq_false ((testBitOf_eq_decide k.w k.acc).symm.trans hclear)
  obtain hsame | hless := h
  · exact hsame
  · omega

/-- With the test bit set, it holds `A` less the aligned divisor, in two's complement (R106). -/
theorem StandsFor.mod_eq_of_set (h : StandsFor k A) (hA : A < k.d * 2 ^ k.w) (hd : k.d < 2 ^ k.w)
    (hset : k.acc.testBit (2 * k.w) = true) :
    k.acc % 2 ^ (2 * k.w + 1) + k.d * 2 ^ k.w = A + 2 ^ (2 * k.w + 1) := by
  have hD := alignedDivisor_lt hd
  have hhigh : 2 ^ (2 * k.w) ≤ k.acc % 2 ^ (2 * k.w + 1) :=
    of_decide_eq_true ((testBitOf_eq_decide k.w k.acc).symm.trans hset)
  obtain hsame | hless := h
  · omega
  · exact hless

/-- The quotient bits of an accumulator that stands for `A` are those of `A`: the aligned divisor does not reach them (R106). -/
theorem StandsFor.quotientBits (h : StandsFor k A) {j : Nat} (hj : j ≤ k.w) : k.acc % 2 ^ j = A % 2 ^ j := by
  obtain ⟨p, hp⟩ : 2 ^ j ∣ 2 ^ (2 * k.w + 1) := Nat.pow_dvd_pow 2 (by omega)
  obtain ⟨q, hq⟩ : 2 ^ j ∣ k.d * 2 ^ k.w := (Nat.pow_dvd_pow 2 hj).mul_left k.d
  rw [← Nat.mod_mod_of_dvd k.acc ⟨p, hp⟩]
  obtain hsame | hless := h
  · rw [hsame]
  · calc k.acc % 2 ^ (2 * k.w + 1) % 2 ^ j
      _ = (k.acc % 2 ^ (2 * k.w + 1) + k.d * 2 ^ k.w) % 2 ^ j := by rw [hq, Nat.add_mul_mod_self_left]
      _ = A % 2 ^ j := by rw [hless, hp, Nat.add_mul_mod_self_left]

end

theorem Holds.lt {w acc A : Nat} (h : Holds w acc A) (hA : A < 2 ^ (2 * w)) : acc < 2 * 2 ^ (2 * w + 1) := by
  obtain rfl | rfl := h <;> omega

/-- The correction does not read `ALG`. -/
theorem finalCorrection_withAlg (a : Alg) (k : Work) : finalCorrection (k.withAlg a) = (finalCorrection k).withAlg a :=
  (apply_ite (Work.withAlg a) (testBitOf k.w k.acc = true) { k with acc := k.acc + k.da } k).symm

/-- Settles O38: both accumulators stand for the same step of long division. -/
theorem nonRestoringLoopTracksRestoring : Obligations.NonRestoringLoopTracksRestoring := by
  intro k j hn hcheck hd hda hca hacc hopc hiter hj
  have hlt : k.n < k.d * 2 ^ k.w := (Nat.div_lt_iff_lt_mul (Nat.two_pow_pos _)).mp hcheck
  have hA := longDivisionAcc_lt hj hlt
  have hA' := hA.trans (alignedDivisor_lt hd)
  obtain ⟨hholds, -, -⟩ := restoringLoop_longDivision ⟨hda, hca⟩ hlt hd hacc hopc hiter hj
  have hr := hholds.mod_eq hA'
  obtain ⟨pt, hv⟩ := nonRestoringLoop_eq ⟨hda, hca⟩ hlt hd hacc hopc hiter hj
  rw [hv]
  intro r v M
  have hloop : LoopState (v.withAlg .nonRestoring) := ⟨rfl, rfl⟩
  have hstands : StandsFor v (longDivisionAcc k.w k.n k.d j) := hloop.standsFor hj hlt hd
  have hfinal := hloop.holds_finalCorrection ⟨hda, hca⟩ hj hlt hd
  rw [finalCorrection_withAlg] at hfinal
  have hrestoringBits : r.acc % 2 ^ j = longDivisionAcc k.w k.n k.d j % 2 ^ j := by
    rw [← Nat.mod_mod_of_dvd r.acc (Nat.pow_dvd_pow 2 (by omega : j ≤ 2 * k.w + 1)), hr]
  have hwidth : v.acc < 2 * M := (accAfter_lt .nonRestoring hj hlt hd).trans_eq (Nat.pow_succ' ..)
  exact ⟨fun hclear => (hstands.mod_eq_of_clear hd hclear).trans hr.symm,
    fun hset => (hstands.mod_eq_of_set hA hd hset).trans (by rw [hr]),
    (hstands.quotientBits hj).trans hrestoringBits.symm,
    (hfinal.mod_eq hA').trans hr.symm, hwidth, hfinal.lt hA', rfl, rfl⟩

/-! ## The divide commands (R104, R105, R107) -/

/-- Settles O43: `DIV.NR.U` is the divide command of these two selectors. -/
theorem unsignedNonRestoringDivision : Obligations.UnsignedNonRestoringDivision := divideMeaning .nonRestoring .unsigned

/-- Settles O44: `DIV.NR.S` is the divide command of these two selectors. -/
theorem signedNonRestoringDivision : Obligations.SignedNonRestoringDivision := divideMeaning .nonRestoring .signed

/-- Settles O48: the count of `divide_divides`, which for this algorithm does not read the quotient. -/
theorem nonRestoringOperationCount : Obligations.NonRestoringOperationCount := by
  intro m a b s h hcheck
  obtain ⟨t, ht, hp, -, -, -, -, hopc⟩ := divide_divides (alg := .nonRestoring) h hcheck
  exact ⟨t, ht, hp, hopc⟩

end Sys2Proof.Machine

/-! # Proofs: errors, refusals and what follows a call (R116, R117, R126) -/

namespace Sys2Proof.Machine

/-- Settles O8: the start of a call is refused, and that is what the command answers. -/
theorem commandWhileBusyRefused : Obligations.CommandWhileBusyRefused := by
  intro i s hp
  have h := beginCall_busy (i := i) hp
  exact ⟨exec_of_beginCall_refused h, h⟩

/-- The move after an error releases the call (R117). -/
theorem advance_raiseError (e : Status) (s : State) : advance (raiseError e s) = .next (release (raiseError e s)) := rfl

/-- Settles O52: the fields that `raiseError` leaves, and the release of the call, which leaves `STATUS` and the results. -/
theorem errorWritesStatusOnly : Obligations.ErrorWritesStatusOnly := fun e s =>
  ⟨raiseError_status e s, raiseError_phase e s, raiseError_results e s, raiseError_work e s, raiseError_inputs e s,
    raiseError_cap e s, _, advance_raiseError e s, release_phase _, release_status _, release_results _⟩

/-- Settles O13: the first call leaves the second one next to come in an idle block of the same capacities, from which it
gives the result it gives from any other such block (R89). -/
theorem batchGoesOnAfterAnyCall : Obligations.BatchGoesOnAfterAnyCall := by
  intro c₁ c₂ i₁ i₂ s t rest hdecode₁ hdecode₂ hp hstep
  obtain ⟨hcall₁, -⟩ := stepRunsPresentedCommand c₁ i₁ s (.call c₂ :: rest) hdecode₁
  obtain ⟨hcall₂, -⟩ := stepRunsPresentedCommand c₂ i₂ t rest hdecode₂
  obtain ⟨hinputs : t.inputs = .call c₂ :: rest, hcap, hidle, -⟩ := commandFrame _ _ _ (hcall₁.symm.trans hstep)
  have hsecond : step t = exec i₂ { t with inputs := rest } := by rwa [← hinputs] at hcall₂
  refine ⟨hsecond, fun u hu => ?_⟩
  obtain ⟨hsame, -⟩ := callIsPure i₂ s { t with inputs := rest } hp (inCall_of_idle hidle) hcap.symm
  obtain ⟨v, hv, -, hresult⟩ := hsame u hu
  exact ⟨v, hsecond.trans hv, hresult⟩

end Sys2Proof.Machine
